-- ==== Sys2Proof/Word.lean ====
section
/-! DEFINITION. The word types of the block (spec/00_scope.md R7). Offsets, lengths and counts are natural numbers (R6, D4). -/

namespace Sys2Proof

/-- A byte, "a natural number 0 to 255" (R7). -/
abbrev Byte := BitVec 8

/-- An unsigned 32-bit number: LENGTH, the `be` of KIND, CHECKSUM, a decoded field (R60, R68). -/
abbrev Word32 := BitVec 32

end Sys2Proof
end

