-- ==== Sys2Proof/Config.lean ====
section
/-! DEFINITION. What the block takes as configuration (spec/00_scope.md R6, spec/10_state.md R31): the six kinds at their
defaults, the constants BPP and MAXTAG, the external decompressor, and the free value of a byte of IN that nothing has written. -/

namespace Sys2Proof

/-- KIND_HEADER (R6, default). PRESUMED, log 1: the spec takes the value from general knowledge (G2). -/
def Config.kindHeader : Word32 := 0x49484452#32
/-- KIND_INTENT (R6, default). PRESUMED, log 1. -/
def Config.kindIntent : Word32 := 0x73524742#32
/-- KIND_PHYSDIM (R6, default). PRESUMED, log 1. -/
def Config.kindPhysdim : Word32 := 0x70485973#32
/-- KIND_GAMMA (R6, default). PRESUMED, log 1. -/
def Config.kindGamma : Word32 := 0x67414D41#32
/-- KIND_TERM (R6, default). PRESUMED, log 1. -/
def Config.kindTerm : Word32 := 0x49454E44#32
/-- KIND_IDATA (R6, default). PRESUMED, log 1. -/
def Config.kindIdata : Word32 := 0x49444154#32

/-- The six recognised values of KIND (R62); every other value is of class OTHER. -/
def Config.knownKinds : List Word32 :=
  [Config.kindHeader, Config.kindIntent, Config.kindPhysdim, Config.kindGamma, Config.kindTerm, Config.kindIdata]

/-- BPP, bytes per pixel: 3, fixed (R6). -/
def Config.bpp : Nat := 3

/-- MAXTAG, the largest legal filter tag (R6). -/
def Config.maxTag : Nat := 4

/-- What the external decompressor answers (spec/43_decompressor_port.md R131): a byte string of any length, or the failure
CorruptStream. -/
inductive DecompressAnswer where
  | bytes (r : List Byte)
  | corruptStream
  deriving DecidableEq, Repr, Inhabited

/-- The parameter `decompress` (R6, R31, R131): a total function of its argument with no assumed property. A free value, log 3. -/
opaque Config.decompress : List Byte → DecompressAnswer

/-- The content of a byte of the IN storage that nothing has written since reset (R29, U14). A free value, DESIGN CHOICE, log 4. -/
opaque Config.inFree : Nat → Byte

end Sys2Proof
end

