-- ==== Sys2Proof/Syntax.lean ====
section
/-! DEFINITION. The instructions of the block: the records of stream 1, the rows of stream 2 and the one host command
(spec/30_encoding.md R60 to R73), one constructor for each row of spec/opcode_table.json. -/

namespace Sys2Proof

/-- KCLASS, the class of a record (R62). -/
inductive KClass where
  | other | header | intent | physdim | gamma | term | idata
  deriving DecidableEq, Repr

/-- One instruction. A record carries its PAYLOAD (LENGTH is the payload's length, R61) and its CHECKSUM, which is never verified
(R64, R100); OTHER also carries its KIND. A row carries its body, the W3 bytes after the tag (R65); ILLEGAL also its tag. -/
inductive Instr where
  /-- HEADER (R93) -/
  | header (payload : List Byte) (crc : Word32)
  /-- INTENT (R94) -/
  | intent (payload : List Byte) (crc : Word32)
  /-- PHYSDIM (R95) -/
  | physdim (payload : List Byte) (crc : Word32)
  /-- GAMMA (R96) -/
  | gamma (payload : List Byte) (crc : Word32)
  /-- TERM (R97) -/
  | term (payload : List Byte) (crc : Word32)
  /-- IDATA (R98) -/
  | idata (payload : List Byte) (crc : Word32)
  /-- OTHER (R99) -/
  | other (kind : Word32) (payload : List Byte) (crc : Word32)
  /-- NONE, tag 0 (R144) -/
  | none (body : List Byte)
  /-- SUB, tag 1 (R145) -/
  | sub (body : List Byte)
  /-- UP, tag 2 (R146) -/
  | up (body : List Byte)
  /-- AVERAGE, tag 3 (R147) -/
  | average (body : List Byte)
  /-- PAETH, tag 4 (R148) -/
  | paeth (body : List Byte)
  /-- ILLEGAL, tags 5 to 255 (R151) -/
  | illegal (tag : Byte) (body : List Byte)
  /-- START, the host command (R73, R110) -/
  | start
  deriving DecidableEq, Repr

/-- Where an instruction stands: the record stream in IN, the row stream in FBUF, or a host write of CTRL. -/
inductive Stream where
  | record | row | command
  deriving DecidableEq, Repr

/-- The stream an instruction belongs to (the "format" column of the opcode table: REC, ROW, HOSTCMD). -/
def Instr.stream : Instr → Stream
  | .header _ _ | .intent _ _ | .physdim _ _ | .gamma _ _ | .term _ _ | .idata _ _ | .other _ _ _ => .record
  | .none _ | .sub _ | .up _ | .average _ | .paeth _ | .illegal _ _ => .row
  | .start => .command

end Sys2Proof
end

