-- ==== Sys2Proof/WellFormed.lean ====
section
/-! DEFINITION. Which instructions an encoding exists for (spec/30_encoding.md R61, R62, R65, R67). -/

namespace Sys2Proof

/-- A record's LENGTH is an unsigned 32-bit number (R61). -/
def WellFormed.payload (p : List Byte) : Bool := decide (p.length < 2 ^ 32)

/-- A row's body has WIDTH*3 bytes for some 32-bit WIDTH (R65, R23). -/
def WellFormed.body (b : List Byte) : Bool := decide (b.length % 3 = 0 ∧ b.length / 3 < 2 ^ 32)

/-- The instruction has an encoding: its payload or body has a possible length, a KIND carried by OTHER is none of the six (R62),
and a tag carried by ILLEGAL is above 4 (R67). -/
def Instr.wellFormed : Instr → Bool
  | .header p _ => WellFormed.payload p
  | .intent p _ => WellFormed.payload p
  | .physdim p _ => WellFormed.payload p
  | .gamma p _ => WellFormed.payload p
  | .term p _ => WellFormed.payload p
  | .idata p _ => WellFormed.payload p
  | .other k p _ => WellFormed.payload p && decide (k ∉ Config.knownKinds)
  | .none b => WellFormed.body b
  | .sub b => WellFormed.body b
  | .up b => WellFormed.body b
  | .average b => WellFormed.body b
  | .paeth b => WellFormed.body b
  | .illegal t b => WellFormed.body b && decide (Config.maxTag < t.toNat)
  | .start => true

end Sys2Proof
end

