-- ==== Sys2Proof/Decode.lean ====
section
/-! DEFINITION. The ByteCursor (spec/40_bytecursor.md R80 to R84), the record decoder (spec/41_record_parser.md R90, R91), the row
decoder (spec/30_encoding.md R65, R67), the host command decoder (R73), and the encoder written from the same tables. -/

namespace Sys2Proof

/-! ## Byte order (R48) -/

/-- The big-endian value of a byte string (R7 `be`). -/
def be (bs : List Byte) : Nat := bs.foldl (fun n b => n * 256 + b.toNat) 0

/-- The big-endian value as a 32-bit number (R69), for byte strings of at most four bytes. -/
def beWord (bs : List Byte) : Word32 := BitVec.ofNat 32 (be bs)

/-- The four bytes of a 32-bit number, most significant first (R48). -/
def wordBytes (w : Word32) : List Byte :=
  [w.extractLsb' 24 8, w.extractLsb' 16 8, w.extractLsb' 8 8, w.extractLsb' 0 8]

/-! ## ByteCursor (R80 to R83) -/

/-- The cursor: the bytes of IN from OFF to IN_LEN, and OFF (R80). -/
structure Cursor where
  rest : List Byte
  off : Nat
  deriving DecidableEq, Repr

/-- What a read of IN gives: a value and the advanced cursor, or the failure of a read of `n` bytes at `off` (R83). -/
inductive Read (α : Type) where
  | ok (value : α) (c : Cursor)
  | short (off n : Nat)
  deriving DecidableEq, Repr

/-- TAKE(n) (R81): all `n` bytes or none. -/
def Cursor.take (n : Nat) (c : Cursor) : Read (List Byte) :=
  if n > c.rest.length then .short c.off n
  else .ok (c.rest.take n) { rest := c.rest.drop n, off := c.off + n }

/-- TAKEINT(n), big-endian (R82, R84). -/
def Cursor.takeInt (n : Nat) (c : Cursor) : Read Nat :=
  match c.take n with
  | .ok r c' => .ok (be r) c'
  | .short o k => .short o k

/-! ## Records (R60, R62, R90, R91) -/

/-- CLASSIFY(K) (R91): exact equality with one of the six kinds, otherwise OTHER. -/
def classify (k : Word32) : KClass :=
  if k = Config.kindHeader then .header
  else if k = Config.kindIntent then .intent
  else if k = Config.kindPhysdim then .physdim
  else if k = Config.kindGamma then .gamma
  else if k = Config.kindTerm then .term
  else if k = Config.kindIdata then .idata
  else .other

/-- The field sizes of a class, in payload order (R63, R92). -/
def schema : KClass → List Nat
  | .header => [4, 4, 1, 1, 1, 1, 1]
  | .intent => [1]
  | .physdim => [4, 4, 1]
  | .gamma => [4]
  | .term => []
  | .idata => []
  | .other => []

/-- SCHEMA_LEN, the least payload length of a class (R63). -/
def schemaLen (kc : KClass) : Nat := (schema kc).sum

/-- The instruction that a record with this KIND, PAYLOAD and CHECKSUM is (R62). -/
def recordOf (k : Word32) (p : List Byte) (crc : Word32) : Instr :=
  match classify k with
  | .header => .header p crc
  | .intent => .intent p crc
  | .physdim => .physdim p crc
  | .gamma => .gamma p crc
  | .term => .term p crc
  | .idata => .idata p crc
  | .other => .other k p crc

/-- The four reads of PARSEONE in their order: LENGTH, KIND, PAYLOAD, CHECKSUM (R90). Fails where the first of them fails. -/
def decodeRecord (c : Cursor) : Read Instr :=
  match c.takeInt 4 with
  | .short o n => .short o n
  | .ok len c1 =>
    match c1.take 4 with
    | .short o n => .short o n
    | .ok kind c2 =>
      match c2.take len with
      | .short o n => .short o n
      | .ok payload c3 =>
        match c3.takeInt 4 with
        | .short o n => .short o n
        | .ok crc c4 => .ok (recordOf (beWord kind) payload (BitVec.ofNat 32 crc)) c4

/-! ## Rows (R65, R67) -/

/-- Why bytes are no instruction of their stream. -/
inductive Reject where
  /-- a read of IN failed: `n` bytes asked for at `off` (R83) -/
  | shortRecord (off n : Nat)
  /-- bytes are left over after the record -/
  | trailing
  /-- a row of no bytes: every row has its tag byte (R65) -/
  | emptyRow
  /-- a row body whose length is WIDTH*3 for no 32-bit WIDTH (R65) -/
  | raggedRow
  /-- a CTRL value with bit 0 = 0: no command (R18, R73) -/
  | noCommand
  deriving DecidableEq, Repr

/-- The answer of a decoder: an instruction, or a rejection by name. -/
inductive Decoded where
  | instr (i : Instr)
  | rejected (r : Reject)
  deriving DecidableEq, Repr

/-- The instruction that a row with this TAG and BODY is (R67); tags above 4 are ILLEGAL (R70 a). -/
def rowOf (t : Byte) (body : List Byte) : Instr :=
  match t.toNat with
  | 0 => .none body
  | 1 => .sub body
  | 2 => .up body
  | 3 => .average body
  | 4 => .paeth body
  | _ => .illegal t body

/-- Decodes one whole row: the tag byte, then the body (R65). -/
def decodeRow : List Byte → Decoded
  | [] => .rejected .emptyRow
  | t :: body => if WellFormed.body body then .instr (rowOf t body) else .rejected .raggedRow

/-! ## The host command (R73) -/

/-- Decodes a value written to CTRL: bit 0 is START, the bits above it are ignored (R17, R18, R73). -/
def decodeCommand (v : Nat) : Decoded :=
  if v % 2 = 1 then .instr .start else .rejected .noCommand

/-! ## All streams -/

/-- Decodes the bytes of one whole instruction of a stream; for the command stream they are the CTRL value, big-endian. -/
def decode (st : Stream) (bs : List Byte) : Decoded :=
  match st with
  | .record =>
    match decodeRecord { rest := bs, off := 0 } with
    | .ok i c => if c.rest = [] then .instr i else .rejected .trailing
    | .short o n => .rejected (.shortRecord o n)
  | .row => decodeRow bs
  | .command => decodeCommand (be bs)

/-- The instruction of an answer, if it is one. -/
def Decoded.toOption : Decoded → Option Instr
  | .instr i => some i
  | .rejected _ => Option.none

/-! ## Encoder -/

/-- The bytes of a record (R60): LENGTH, KIND, PAYLOAD, CHECKSUM. -/
def encodeRecord (k : Word32) (p : List Byte) (crc : Word32) : List Byte :=
  wordBytes (BitVec.ofNat 32 p.length) ++ wordBytes k ++ p ++ wordBytes crc

/-- The bytes of an instruction (R60, R62, R65, R67); START is the CTRL value 1 (R73). -/
def encode : Instr → List Byte
  | .header p c => encodeRecord Config.kindHeader p c
  | .intent p c => encodeRecord Config.kindIntent p c
  | .physdim p c => encodeRecord Config.kindPhysdim p c
  | .gamma p c => encodeRecord Config.kindGamma p c
  | .term p c => encodeRecord Config.kindTerm p c
  | .idata p c => encodeRecord Config.kindIdata p c
  | .other k p c => encodeRecord k p c
  | .none b => 0x00#8 :: b
  | .sub b => 0x01#8 :: b
  | .up b => 0x02#8 :: b
  | .average b => 0x03#8 :: b
  | .paeth b => 0x04#8 :: b
  | .illegal t b => t :: b
  | .start => [0x01#8]

/-! ## Words as spec/opcode_table.json numbers them (log 7) -/

/-- The record a REC row of the opcode table stands for: its `be`(KIND) is the table's word; LENGTH is the least its class decodes
with, and PAYLOAD and CHECKSUM are zero. DESIGN CHOICE, log 7. -/
def tableRecord (w : Nat) : List Byte :=
  encodeRecord (BitVec.ofNat 32 w) (List.replicate (schemaLen (classify (BitVec.ofNat 32 w))) 0#8) 0#32

/-- The row a ROW row of the opcode table stands for, at WIDTH `width`: the tag is the table's byte, the body is zeros (log 7). -/
def tableRow (width w : Nat) : List Byte :=
  BitVec.ofNat 8 w :: List.replicate (width * Config.bpp) 0#8

/-- The instruction the decoder reads from a table word: fewer than 8 bits is a CTRL value, 8 bits a filter tag, more a KIND.
A word of 8 bits is read as a filter tag, so the word 1 of 8 bits is SUB and not START. DESIGN CHOICE, log 7. -/
def decodeTableWord (nbits w : Nat) : Option Instr :=
  if nbits < 8 then (decodeCommand w).toOption
  else if nbits = 8 then (decode .row (tableRow 0 w)).toOption
  else (decode .record (tableRecord w)).toOption

end Sys2Proof
end

