-- ==== Sys2Proof/Machine/State.lean ====
section
/-! DEFINITION. The state of the block (spec/10_state.md R10 to R27), its reset value (R29), the actions of the host, and the
reasons a step can stop. The state is plain data. -/

namespace Sys2Proof.Machine

open Sys2Proof

/-- PHASE (R15). -/
inductive Phase where
  | idle | parse | geom | inflate | slice | defilter | done | error
  deriving DecidableEq, Repr

/-- The three flags (R16). -/
structure Flags where
  /-- HDR_SEEN -/
  hdrSeen : Bool
  /-- DATA_BEFORE_HDR -/
  dataBeforeHdr : Bool
  /-- END_SEEN -/
  endSeen : Bool
  deriving DecidableEq, Repr

/-- The error registers (R20). -/
structure ErrRegs where
  /-- ERR_CODE -/
  code : BitVec 3
  /-- ERR_SUB -/
  sub : BitVec 1
  /-- ERR_INFO0 -/
  info0 : Nat
  /-- ERR_INFO1 -/
  info1 : Nat
  deriving DecidableEq, Repr

/-- The seven geometry registers (R23). -/
structure Geometry where
  /-- WIDTH -/
  width : Word32
  /-- HEIGHT -/
  height : Word32
  /-- BIT_DEPTH -/
  bitDepth : Byte
  /-- COLOR_MODEL -/
  colorModel : Byte
  /-- COMPRESSION -/
  compression : Byte
  /-- FILTER_METHOD -/
  filterMethod : Byte
  /-- INTERLACE -/
  interlace : Byte
  deriving DecidableEq, Repr

/-- The operand latches of the filter unit (R11). -/
structure Latches where
  /-- V, the filtered sample -/
  v : Byte
  /-- A, the left neighbour -/
  a : Byte
  /-- B, the neighbour above -/
  b : Byte
  /-- C, the neighbour above and left -/
  c : Byte
  deriving DecidableEq, Repr

/-- A record descriptor, the element of REC_LOG (spec/30_encoding.md R68). -/
structure Descriptor where
  /-- START, the offset of the record's first byte -/
  start : Nat
  /-- LENGTH -/
  length : Word32
  /-- KIND, `be` of the four kind bytes -/
  kind : Word32
  /-- KCLASS -/
  kclass : KClass
  /-- PAYLOAD_OFF -/
  payloadOff : Nat
  /-- CRC, the unverified checksum -/
  crc : Word32
  /-- NF, the number of decoded fields -/
  nf : BitVec 3
  /-- F0 -/
  f0 : Word32
  /-- F1 -/
  f1 : Word32
  /-- F2 -/
  f2 : Word32
  /-- F3 -/
  f3 : Word32
  /-- F4 -/
  f4 : Word32
  /-- F5 -/
  f5 : Word32
  /-- F6 -/
  f6 : Word32
  deriving DecidableEq, Repr

/-- What the host may ask to read (R17, R32): a register by number, REC_LOG, GRID or TAGLOG. -/
inductive ReadTarget where
  | reg (n : Nat)
  | recLog
  | grid
  | tagLog
  deriving DecidableEq, Repr

/-- One action outside the block, or the block's turn. The host's and the platform's actions are those of
spec/70_reset_and_hazards.md R203. -/
inductive HostAct where
  /-- the outside does nothing: the block takes its step -/
  | pass
  /-- the host writes bytes into IN from an offset on (R32) -/
  | writeIn (off : Nat) (bytes : List Byte)
  /-- the host writes a value to a register (R17); CTRL is register 0, IN_LEN register 6 -/
  | writeReg (n v : Nat)
  /-- the host reads (R32); what it gets is Machine/HostPort.lean's hostRead -/
  | read (t : ReadTarget)
  /-- the platform asserts reset (R200) -/
  | reset
  deriving DecidableEq, Repr

/-- A byte memory: (address, byte) pairs with strictly rising addresses. An address that is not listed holds no written byte. -/
abbrev Memory := List Host.Cell

/-- Why the machine stops. Only states that no run reaches raise these: the invariants of Safety.lean exclude them, so each is
safe. -/
inductive Fault where
  /-- raised by the SLICE step when STRIDE = 0, which R24 excludes; safe -/
  | strideZero
  /-- raised by the ROW step when FBUF has fewer than (ROW+1)*STRIDE bytes, which R140 excludes; safe -/
  | rowOutsideFbuf
  /-- raised by the ROW step when the row's bytes are no row of a 32-bit WIDTH, which R24 excludes; safe -/
  | notARow
  /-- raised in DEFILTER when ROW is above NROWS, which R210 excludes; safe -/
  | rowPastEnd
  deriving DecidableEq, Repr

/-- Why there is no move. -/
inductive Refusal where
  /-- raised by exec's arm of an instruction that has no meaning yet; safe -/
  | notModelled (mnemonic : String)
  /-- raised by a record's meaning outside PHASE = PARSE, where no record is executed (R111); safe; step never gets here -/
  | recordNotEnabled
  /-- raised by a row's meaning when no ROW step with this row is enabled (R141); safe; step never gets here from a state that
  meets the invariants -/
  | rowNotEnabled
  /-- raised by a host write of IN or IN_LEN while BUSY, which has no defined result (R204, U9); safe -/
  | inputWriteWhileBusy
  /-- raised by a host read outside the rights of R32 (U9); safe -/
  | readOutsideRights
  /-- raised by a host write of a register number above 22, a register that does not exist (R17); safe -/
  | noSuchRegister
  deriving DecidableEq, Repr

/-- The whole state of the block (R10), and the model's own field `host`. -/
structure State where
  /-- PHASE (R15) -/
  phase : Phase
  /-- OFF (R13) -/
  off : Nat
  /-- REC_START (R22) -/
  recStart : Nat
  /-- ROW (R14) -/
  row : Nat
  /-- HDR_SEEN, DATA_BEFORE_HDR, END_SEEN (R16) -/
  flags : Flags
  /-- ERR_CODE, ERR_SUB, ERR_INFO0, ERR_INFO1 (R20) -/
  err : ErrRegs
  /-- IN_LEN (R21) -/
  inLen : Nat
  /-- the geometry registers (R23) -/
  geom : Geometry
  /-- STRIDE (R24) -/
  stride : Nat
  /-- NROWS (R24) -/
  nrows : Nat
  /-- CUR (R12) -/
  cur : List Byte
  /-- PREV (R12) -/
  prev : List Byte
  /-- V, A, B, C (R11) -/
  latch : Latches
  /-- IN (R26, R41) -/
  inMem : Memory
  /-- REC_LOG (R26, R42) -/
  recLog : List Descriptor
  /-- ZBUF (R26, R44) -/
  zbuf : List Byte
  /-- FBUF (R26, R45) -/
  fbuf : List Byte
  /-- GRID (R26, R46) -/
  grid : List (List Byte)
  /-- TAGLOG (R27) -/
  tagLog : List Byte
  /-- The model's own: the coming actions of the host and the platform, the next one first; when it is empty the block steps.
  DESIGN CHOICE, log 5. -/
  host : List HostAct
  deriving DecidableEq, Repr

/-- All flags 0. -/
def Flags.zero : Flags := { hdrSeen := false, dataBeforeHdr := false, endSeen := false }

/-- No error recorded. -/
def ErrRegs.zero : ErrRegs := { code := 0#3, sub := 0#1, info0 := 0, info1 := 0 }

/-- All geometry registers 0. -/
def Geometry.zero : Geometry :=
  { width := 0#32, height := 0#32, bitDepth := 0#8, colorModel := 0#8, compression := 0#8, filterMethod := 0#8,
    interlace := 0#8 }

/-- The latches' value at reset. DESIGN CHOICE, log 6: R29 leaves it unspecified. -/
def Latches.zero : Latches := { v := 0#8, a := 0#8, b := 0#8, c := 0#8 }

/-- The machine after reset (R29, R201). -/
def State.reset : State :=
  { phase := .idle, off := 0, recStart := 0, row := 0, flags := Flags.zero, err := ErrRegs.zero, inLen := 0,
    geom := Geometry.zero, stride := 0, nrows := 0, cur := [], prev := [], latch := Latches.zero, inMem := [], recLog := [],
    zbuf := [], fbuf := [], grid := [], tagLog := [], host := [] }

end Sys2Proof.Machine
end

