-- ==== Sys2Proof/Machine/Ops.lean ====
section
/-! DEFINITION. The named operations over memory and registers: IN (spec/20_memory.md R41), the error entry
(spec/60_exceptions.md R178), leaving an error or starting a run (spec/42_container.md R110), and the moves of the two program
counters (spec/10_state.md R13, R14, R22). -/

namespace Sys2Proof.Machine

open Sys2Proof

/-! ## Byte memory -/

/-- The byte written at an address, if one was. -/
def Memory.read? : Memory → Nat → Option Byte
  | [], _ => none
  | (x, b) :: r, a => if x = a then some b else Memory.read? r a

/-- Writes one byte, keeping the addresses strictly rising. -/
def Memory.write : Memory → Nat → Byte → Memory
  | [], a, b => [(a, b)]
  | (x, c) :: r, a, b =>
    if a < x then (a, b) :: (x, c) :: r
    else if a = x then (a, b) :: r
    else (x, c) :: Memory.write r a b

/-- Writes bytes at rising addresses. -/
def Memory.writeBytes : Memory → Nat → List Byte → Memory
  | m, _, [] => m
  | m, a, b :: bs => Memory.writeBytes (Memory.write m a b) (a + 1) bs

/-- Every listed address is above `a` and the addresses rise strictly. -/
def Memory.above : Nat → Memory → Bool
  | _, [] => true
  | a, (x, _) :: r => decide (a < x) && Memory.above x r

/-- The canonical form: the addresses rise strictly. An unlisted address holds no written byte, so no entry can be superfluous
(log 4). -/
def Memory.wf : Memory → Bool
  | [] => true
  | (x, _) :: r => Memory.above x r

/-! ## IN (R41, R8 MemRead) -/

/-- The byte of IN at an offset: the byte written there, or the free value of storage nothing has written (log 4). -/
def State.inByte (s : State) (a : Nat) : Byte := (Memory.read? s.inMem a).getD (Config.inFree a)

/-- MemRead(addr, n) (R8): the `n` bytes of IN from `addr` on. -/
def State.memRead (s : State) (addr n : Nat) : List Byte := (List.range n).map (fun k => s.inByte (addr + k))

/-- The ByteCursor (R10, R80): the bytes from OFF to IN_LEN. -/
def State.cursor (s : State) : Cursor := { rest := s.memRead s.off (s.inLen - s.off), off := s.off }

/-- Row ROW of FBUF (R14, R65): the bytes from ROW*STRIDE up to (ROW+1)*STRIDE. -/
def State.rowBytes (s : State) : List Byte := (s.fbuf.drop (s.row * s.stride)).take s.stride

/-! ## The error entry (R170, R178) and its end (R110, R179) -/

/-- The five errors (R170). -/
inductive ErrorKind where
  | outOfBounds | malformedRecord | missingHeader | truncatedImageData | corruptStream
  deriving DecidableEq, Repr

/-- The code of an error (R170). -/
def ErrorKind.code : ErrorKind → BitVec 3
  | .outOfBounds => 1#3
  | .malformedRecord => 2#3
  | .missingHeader => 3#3
  | .truncatedImageData => 4#3
  | .corruptStream => 5#3

/-- The error entry `raise E(sub, info0, info1)` (R178): records the error, empties GRID and TAGLOG, and stops the block; everything
else keeps its value. -/
def State.raise (e : ErrorKind) (sub : BitVec 1) (info0 info1 : Nat) (s : State) : State :=
  { s with
    err := { code := e.code, sub := sub, info0 := info0, info1 := info1 }
    grid := []
    tagLog := []
    phase := .error }

/-- The effect of START (R110): every register of the run is cleared and parsing begins; IN, IN_LEN and the operand latches keep
their values. It is also the only way out of an error but reset (R179). -/
def State.startRun (s : State) : State :=
  { s with
    off := 0, recStart := 0, row := 0
    flags := Flags.zero
    err := ErrRegs.zero
    geom := Geometry.zero
    stride := 0, nrows := 0
    recLog := [], zbuf := [], fbuf := [], grid := [], tagLog := []
    cur := [], prev := []
    phase := .parse }

/-- Reset (R201): every piece of the block's state takes its reset value; the coming actions of the outside are not the block's. -/
def State.doReset (s : State) : State := { State.reset with host := s.host }

/-! ## Moves over the record stream -/

/-- PARSEONE's move over a whole record with this payload (R90): REC_START is its offset, OFF is past its checksum. -/
def State.passRecord (p : List Byte) (s : State) : State :=
  { s with recStart := s.off, off := s.off + 12 + p.length }

/-- A read of IN failed inside PARSEONE (R83, R90, R171): OFF stands at the field that could not be read. -/
def State.failRead (off n : Nat) (s : State) : State :=
  State.raise .outOfBounds 0#1 off n { s with recStart := s.off, off := off }

/-- Appends a descriptor to REC_LOG (R112). -/
def State.logRecord (d : Descriptor) (s : State) : State := { s with recLog := s.recLog ++ [d] }

/-- Appends a payload to ZBUF (R115). -/
def State.appendZ (p : List Byte) (s : State) : State := { s with zbuf := s.zbuf ++ p }

end Sys2Proof.Machine
end

