-- ==== Sys2Proof/Machine/Flags.lean ====
section
/-! DEFINITION. PHASE and its views (spec/10_state.md R15, R19; spec/60_exceptions.md R182), and what sets each of the three flags
(R16; spec/42_container.md R113, R114, R116). The block has no arithmetic condition codes (R16). -/

namespace Sys2Proof.Machine

open Sys2Proof

/-- The encoding of PHASE (R15). -/
def Phase.code : Phase → BitVec 3
  | .idle => 0#3
  | .parse => 1#3
  | .geom => 2#3
  | .inflate => 3#3
  | .slice => 4#3
  | .defilter => 5#3
  | .done => 6#3
  | .error => 7#3

/-- BUSY (R19). -/
def Phase.busy : Phase → Bool
  | .parse | .geom | .inflate | .slice | .defilter => true
  | .idle | .done | .error => false

/-- STATUS.BUSY (R19). -/
def State.busy (s : State) : Bool := s.phase.busy

/-- STATUS.DONE (R19), also the level output done_o (R182). -/
def State.doneOut (s : State) : Bool := decide (s.phase = .done)

/-- STATUS.ERR (R19), also the level output err_o (R182). -/
def State.errOut (s : State) : Bool := decide (s.phase = .error)

/-- One bit as a number. -/
def bit (b : Bool) : Nat := if b then 1 else 0

/-- STATUS, nine bits (R19): PHASE in bits 2:0, then BUSY, DONE, ERR, HDR_SEEN, DATA_BEFORE_HDR, END_SEEN. -/
def State.status (s : State) : Nat :=
  s.phase.code.toNat + 8 * bit s.busy + 16 * bit s.doneOut + 32 * bit s.errOut + 64 * bit s.flags.hdrSeen
    + 128 * bit s.flags.dataBeforeHdr + 256 * bit s.flags.endSeen

/-- The first header of a run is committed (R113): geometry is written and HDR_SEEN is set. A later one changes neither. -/
def State.hoist (g : Geometry) (s : State) : State :=
  { s with
    geom := if s.flags.hdrSeen then s.geom else g
    flags := { s.flags with hdrSeen := true } }

/-- Image data is committed (R114): DATA_BEFORE_HDR is set if no header has been seen. -/
def State.noteData (s : State) : State :=
  { s with flags := { s.flags with dataBeforeHdr := s.flags.dataBeforeHdr || !s.flags.hdrSeen } }

/-- The terminator is committed (R116): END_SEEN is set and the PARSE phase ends. -/
def State.noteEnd (s : State) : State :=
  { s with flags := { s.flags with endSeen := true }, phase := .geom }

end Sys2Proof.Machine
end

