-- ==== Sys2Proof/Machine/Command.lean ====
section
/-! DEFINITION. The meaning of the host command START (spec/42_container.md R110, spec/10_state.md R18). -/

namespace Sys2Proof.Machine

open Sys2Proof

/-- START (R110): begins a run in IDLE, DONE and ERROR; ignored while BUSY (R18). -/
def execStart (s : State) : Host.Outcome State Fault Refusal := if s.busy then .next s else .next s.startRun

end Sys2Proof.Machine
end

