-- ==== Sys2Proof/Machine/Operands.lean ====
section
/-! DEFINITION. Operands: the decoded fields of a payload (spec/41_record_parser.md R92; spec/30_encoding.md R63, R68, R69), the
neighbours of a sample (spec/44_scanline_reconstructor.md R142), the five predictors (R144 to R150) and the reconstruction addition
(R143). -/

namespace Sys2Proof.Machine

open Sys2Proof

/-! ## Record fields -/

/-- The encoding of KCLASS (R62). -/
def classCode : KClass → BitVec 3
  | .other => 0#3
  | .header => 1#3
  | .intent => 2#3
  | .physdim => 3#3
  | .gamma => 4#3
  | .term => 5#3
  | .idata => 6#3

/-- The fields of the given sizes, one after another from the front of a payload (R92, R69). -/
def takeFields : List Nat → List Byte → List Word32
  | [], _ => []
  | z :: zs, p => beWord (p.take z) :: takeFields zs (p.drop z)

/-- DECODE(kc, P) (R92): none if the payload is shorter than the schema; bytes past the schema are not looked at (R101). -/
def decodeFields (kc : KClass) (p : List Byte) : Option (List Word32) :=
  if schemaLen kc > p.length then none else some (takeFields (schema kc) p)

/-- The descriptor PARSEONE returns for a record at `off` (R68, R90); a field beyond the class's fields is 0. -/
def descriptorOf (off : Nat) (kc : KClass) (kind : Word32) (p : List Byte) (crc : Word32) (fs : List Word32) : Descriptor :=
  { start := off
    length := BitVec.ofNat 32 p.length
    kind := kind
    kclass := kc
    payloadOff := off + 8
    crc := crc
    nf := BitVec.ofNat 3 fs.length
    f0 := fs.getD 0 0#32
    f1 := fs.getD 1 0#32
    f2 := fs.getD 2 0#32
    f3 := fs.getD 3 0#32
    f4 := fs.getD 4 0#32
    f5 := fs.getD 5 0#32
    f6 := fs.getD 6 0#32 }

/-- The geometry a header descriptor carries (R111, R113). -/
def geometryOf (d : Descriptor) : Geometry :=
  { width := d.f0
    height := d.f1
    bitDepth := d.f2.extractLsb' 0 8
    colorModel := d.f3.extractLsb' 0 8
    compression := d.f4.extractLsb' 0 8
    filterMethod := d.f5.extractLsb' 0 8
    interlace := d.f6.extractLsb' 0 8 }

/-! ## Samples -/

/-- The byte of a row buffer at a position; 0 where the buffer has none, which no enabled ROW step asks for (log 11). -/
def byteAt (l : List Byte) (x : Nat) : Byte := l.getD x 0#8

/-- The byte BPP positions to the left, or 0 if that is no position of the body (R142 `x - bpp < 1`). -/
def leftOf (l : List Byte) (x : Nat) : Byte := if Config.bpp + 1 ≤ x then byteAt l (x - Config.bpp) else 0#8

/-- The reconstruction addition (R143): the sum modulo 256. -/
def addMod256 (v : Byte) (p : Nat) : Byte := BitVec.ofNat 8 (v.toNat + p)

/-- The predictor of NONE (R144). -/
def predNone (_a _b _c : Byte) : Nat := 0

/-- The predictor of SUB (R145). -/
def predSub (a _b _c : Byte) : Nat := a.toNat

/-- The predictor of UP (R146). -/
def predUp (_a b _c : Byte) : Nat := b.toNat

/-- The predictor of AVERAGE (R147): the sum is not wrapped, the half is rounded down. -/
def predAverage (a b _c : Byte) : Nat := (a.toNat + b.toNat) / 2

/-- paethPredictor (R150), in integers: the operand nearest to a + b - c, ties to a, then b. The reading is that of spec/90_conflicts.md
C1, log 12. -/
def paethPredictor (a b c : Byte) : Byte :=
  let p : Int := (a.toNat : Int) + b.toNat - c.toNat
  let pa := (p - a.toNat).natAbs
  let pb := (p - b.toNat).natAbs
  let pc := (p - c.toNat).natAbs
  if pa ≤ pb ∧ pa ≤ pc then a else if pb ≤ pc then b else c

/-- The predictor of PAETH (R148). -/
def predPaeth (a b c : Byte) : Nat := (paethPredictor a b c).toNat

end Sys2Proof.Machine
end

