-- ==== Sys2Proof/Machine/Records.lean ====
section
/-! DEFINITION. The meanings of the seven record classes: one PARSE step each (spec/41_record_parser.md R93 to R99,
spec/42_container.md R111 to R116). -/

namespace Sys2Proof.Machine

open Sys2Proof

/-- One PARSE step over a record whose four reads succeeded (R90, R111): OFF moves past it; a payload shorter than its schema
raises MalformedRecord (R172) and commits nothing; otherwise the descriptor is logged and the class's own effect follows. -/
def parseStep (kc : KClass) (kind : Word32) (p : List Byte) (crc : Word32) (effect : Descriptor → State → State) (s : State) :
    Host.Outcome State Fault Refusal :=
  if s.phase = .parse then
    match decodeFields kc p with
    | none => .next (State.raise .malformedRecord 0#1 s.off p.length (s.passRecord p))
    | some fs =>
      .next (effect (descriptorOf s.off kc kind p crc fs)
        (State.logRecord (descriptorOf s.off kc kind p crc fs) (s.passRecord p)))
  else .refused .recordNotEnabled

/-- The classes that are logged and nothing else (R94, R95, R96, R99). -/
def logOnly (_d : Descriptor) (s : State) : State := s

/-- HEADER (R93, R113). -/
def execHeader (p : List Byte) (crc : Word32) (s : State) : Host.Outcome State Fault Refusal :=
  parseStep .header Config.kindHeader p crc (fun d t => t.hoist (geometryOf d)) s

/-- INTENT (R94). -/
def execIntent (p : List Byte) (crc : Word32) (s : State) : Host.Outcome State Fault Refusal :=
  parseStep .intent Config.kindIntent p crc logOnly s

/-- PHYSDIM (R95). -/
def execPhysdim (p : List Byte) (crc : Word32) (s : State) : Host.Outcome State Fault Refusal :=
  parseStep .physdim Config.kindPhysdim p crc logOnly s

/-- GAMMA (R96). -/
def execGamma (p : List Byte) (crc : Word32) (s : State) : Host.Outcome State Fault Refusal :=
  parseStep .gamma Config.kindGamma p crc logOnly s

/-- TERM (R97, R116). -/
def execTerm (p : List Byte) (crc : Word32) (s : State) : Host.Outcome State Fault Refusal :=
  parseStep .term Config.kindTerm p crc (fun _ t => t.noteEnd) s

/-- IDATA (R98, R114, R115). -/
def execIdata (p : List Byte) (crc : Word32) (s : State) : Host.Outcome State Fault Refusal :=
  parseStep .idata Config.kindIdata p crc (fun _ t => t.noteData.appendZ p) s

/-- OTHER (R99). -/
def execOther (kind : Word32) (p : List Byte) (crc : Word32) (s : State) : Host.Outcome State Fault Refusal :=
  parseStep .other kind p crc logOnly s

end Sys2Proof.Machine
end

