-- ==== Sys2Proof/Machine/Rows.lean ====
section
/-! DEFINITION. The meanings of the rows: one ROW step each (spec/44_scanline_reconstructor.md R141 to R152). -/

namespace Sys2Proof.Machine

open Sys2Proof

/-- What one ROW step works on: the latches and CUR. -/
structure RowRegs where
  latch : Latches
  cur : List Byte
  deriving DecidableEq, Repr

/-- One sample (R141): loads V, A, B, C and writes the reconstructed byte back to CUR[x], in place. -/
def sample (pred : Byte → Byte → Byte → Nat) (prev : List Byte) (r : RowRegs) (x : Nat) : RowRegs :=
  let v := byteAt r.cur x
  let a := leftOf r.cur x
  let b := byteAt prev x
  let c := leftOf prev x
  { latch := { v := v, a := a, b := b, c := c }
    cur := r.cur.set x (addMod256 v (pred a b c)) }

/-- The samples x, x+1, ..., x+n-1, strictly left to right (R154 b). -/
def samples (pred : Byte → Byte → Byte → Nat) (prev : List Byte) : Nat → Nat → RowRegs → RowRegs
  | _, 0, r => r
  | x, n + 1, r => samples pred prev (x + 1) n (sample pred prev r x)

/-- A ROW step with this body is enabled (R141): PHASE = DEFILTER, ROW < NROWS, the row has STRIDE bytes, and so has PREV. -/
def rowReady (body : List Byte) (s : State) : Bool :=
  decide (s.phase = .defilter ∧ s.row < s.nrows ∧ body.length + 1 = s.stride ∧ s.prev.length = s.stride)

/-- The end of a successful ROW step (R141, R152): the row without its tag joins GRID, the tag joins TAGLOG, PREV is CUR. -/
def State.finishRow (tag : Byte) (r : RowRegs) (s : State) : State :=
  { s with
    cur := r.cur
    latch := r.latch
    grid := s.grid ++ [r.cur.tail]
    tagLog := s.tagLog ++ [tag]
    prev := r.cur
    row := s.row + 1 }

/-- One ROW step with a legal tag (R141). -/
def rowStep (tag : Byte) (pred : Byte → Byte → Byte → Nat) (body : List Byte) (s : State) : Host.Outcome State Fault Refusal :=
  if rowReady body s then
    .next (s.finishRow tag (samples pred s.prev 1 body.length { latch := s.latch, cur := tag :: body }))
  else .refused .rowNotEnabled

/-- NONE (R144). -/
def execNone (body : List Byte) (s : State) : Host.Outcome State Fault Refusal := rowStep 0x00#8 predNone body s

/-- SUB (R145). -/
def execSub (body : List Byte) (s : State) : Host.Outcome State Fault Refusal := rowStep 0x01#8 predSub body s

/-- UP (R146). -/
def execUp (body : List Byte) (s : State) : Host.Outcome State Fault Refusal := rowStep 0x02#8 predUp body s

/-- AVERAGE (R147). -/
def execAverage (body : List Byte) (s : State) : Host.Outcome State Fault Refusal := rowStep 0x03#8 predAverage body s

/-- PAETH (R148). -/
def execPaeth (body : List Byte) (s : State) : Host.Outcome State Fault Refusal := rowStep 0x04#8 predPaeth body s

/-- ILLEGAL (R151): CUR is loaded, no sample is transformed, and the error entry follows with the row index and the tag. -/
def execIllegal (tag : Byte) (body : List Byte) (s : State) : Host.Outcome State Fault Refusal :=
  if rowReady body s then
    .next (State.raise .malformedRecord 1#1 s.row tag.toNat { s with cur := tag :: body })
  else .refused .rowNotEnabled

end Sys2Proof.Machine
end

