-- ==== Sys2Proof/Machine/Dispatch.lean ====
section
/-! DEFINITION. The dispatch: one arm for each instruction, one meaning for each arm. -/

namespace Sys2Proof.Machine

open Sys2Proof

def exec (i : Instr) (s : State) : Host.Outcome State Fault Refusal :=
  match i with
  | .header p crc => Sys2Proof.Machine.execHeader p crc s
  | .intent p crc => Sys2Proof.Machine.execIntent p crc s
  | .physdim p crc => Sys2Proof.Machine.execPhysdim p crc s
  | .gamma p crc => Sys2Proof.Machine.execGamma p crc s
  | .term p crc => Sys2Proof.Machine.execTerm p crc s
  | .idata p crc => Sys2Proof.Machine.execIdata p crc s
  | .other kind p crc => Sys2Proof.Machine.execOther kind p crc s
  | .none body => Sys2Proof.Machine.execNone body s
  | .sub body => Sys2Proof.Machine.execSub body s
  | .up body => Sys2Proof.Machine.execUp body s
  | .average body => Sys2Proof.Machine.execAverage body s
  | .paeth body => Sys2Proof.Machine.execPaeth body s
  | .illegal tag body => Sys2Proof.Machine.execIllegal tag body s
  | .start => Sys2Proof.Machine.execStart s

end Sys2Proof.Machine
end

