-- ==== Sys2Proof/Machine/Sequencer.lean ====
section
/-! DEFINITION. The block's own steps (spec/10_state.md R30): PARSE, GEOM, INFLATE, SLICE, ROW and finish, and how each fetches
what it executes. -/

namespace Sys2Proof.Machine

open Sys2Proof

/-- The PARSE step (R111): PARSEONE's four reads (R90), then the record's meaning; a read that fails ends in OutOfBounds (R171). -/
def stepParse (s : State) : Host.Outcome State Fault Refusal :=
  match decodeRecord s.cursor with
  | .ok i _ => exec i s
  | .short off n => .next (s.failRead off n)

/-- The GEOM step (R119). -/
def stepGeom (s : State) : Host.Outcome State Fault Refusal :=
  if s.flags.hdrSeen = false ∨ s.flags.dataBeforeHdr = true then
    .next (State.raise .missingHeader 0#1 (bit s.flags.hdrSeen) (bit s.flags.dataBeforeHdr) s)
  else .next { s with stride := s.geom.width.toNat * Config.bpp + 1, phase := .inflate }

/-- The INFLATE step for a given answer of the decompressor (R130). -/
def inflateWith (answer : DecompressAnswer) (s : State) : State :=
  match answer with
  | .bytes r => { s with fbuf := r, phase := .slice }
  | .corruptStream => State.raise .corruptStream 0#1 s.zbuf.length 0 s

/-- The INFLATE step (R130, R132): one call with the whole of ZBUF. -/
def stepInflate (s : State) : Host.Outcome State Fault Refusal := .next (inflateWith (Config.decompress s.zbuf) s)

/-- The SLICE step (R140). -/
def stepSlice (s : State) : Host.Outcome State Fault Refusal :=
  if s.stride = 0 then .fault .strideZero
  else if s.fbuf.length % s.stride ≠ 0 then
    .next (State.raise .truncatedImageData 0#1 s.fbuf.length (s.fbuf.length % s.stride) s)
  else
    .next { s with
      nrows := s.fbuf.length / s.stride
      row := 0
      prev := List.replicate s.stride 0#8
      phase := .defilter }

/-- The ROW step: fetches row ROW of FBUF and executes it (R141). -/
def stepRow (s : State) : Host.Outcome State Fault Refusal :=
  if s.rowBytes.length = s.stride then
    match decodeRow s.rowBytes with
    | .instr i => exec i s
    | .rejected _ => .fault .notARow
  else .fault .rowOutsideFbuf

/-- The step of PHASE = DEFILTER: a ROW step while ROW < NROWS (R141), then the finish step (R153). -/
def stepDefilter (s : State) : Host.Outcome State Fault Refusal :=
  if s.row < s.nrows then stepRow s
  else if s.row = s.nrows then .next { s with phase := .done }
  else .fault .rowPastEnd

/-- The block's step (R30). In IDLE, DONE and ERROR the block has none: it waits, and its state stays (DESIGN CHOICE, log 5). -/
def blockStep (s : State) : Host.Outcome State Fault Refusal :=
  match s.phase with
  | .idle => .next s
  | .parse => stepParse s
  | .geom => stepGeom s
  | .inflate => stepInflate s
  | .slice => stepSlice s
  | .defilter => stepDefilter s
  | .done => .next s
  | .error => .next s

end Sys2Proof.Machine
end

