-- ==== Sys2Proof/Machine/HostPort.lean ====
section
/-! DEFINITION. The host's side: the register file (spec/10_state.md R17 to R25), the access rights by phase (R32), and the host's
and the platform's actions (spec/70_reset_and_hazards.md R200 to R204). -/

namespace Sys2Proof.Machine

open Sys2Proof

/-- The value of a register of the file (R17), views included (R19, R25); none for a number the file does not have. -/
def regValue (n : Nat) (s : State) : Option Nat :=
  match n with
  | 0 => some 0
  | 1 => some s.status
  | 2 => some s.err.code.toNat
  | 3 => some s.err.sub.toNat
  | 4 => some s.err.info0
  | 5 => some s.err.info1
  | 6 => some s.inLen
  | 7 => some s.off
  | 8 => some s.recStart
  | 9 => some s.recLog.length
  | 10 => some s.geom.width.toNat
  | 11 => some s.geom.height.toNat
  | 12 => some s.geom.bitDepth.toNat
  | 13 => some s.geom.colorModel.toNat
  | 14 => some s.geom.compression.toNat
  | 15 => some s.geom.filterMethod.toNat
  | 16 => some s.geom.interlace.toNat
  | 17 => some s.zbuf.length
  | 18 => some s.fbuf.length
  | 19 => some s.stride
  | 20 => some s.nrows
  | 21 => some s.row
  | 22 => some s.grid.length
  | _ => none

/-- What a host read delivers. -/
inductive ReadValue where
  | number (v : Nat)
  | recLog (l : List Descriptor)
  | grid (g : List (List Byte))
  | tagLog (l : List Byte)
  deriving DecidableEq, Repr

/-- What the host gets from a read (R32): while BUSY only STATUS; GRID and TAGLOG only in DONE; none outside these rights. -/
def hostRead (t : ReadTarget) (s : State) : Option ReadValue :=
  match t with
  | .reg n => if s.busy = true ∧ n ≠ 1 then none else (regValue n s).map ReadValue.number
  | .recLog => if s.busy then none else some (.recLog s.recLog)
  | .grid => if s.phase = .done then some (.grid s.grid) else none
  | .tagLog => if s.phase = .done then some (.tagLog s.tagLog) else none

/-- A host write to CTRL (R18, R73): an odd value is START, an even one nothing. -/
def writeCtrl (v : Nat) (s : State) : Host.Outcome State Fault Refusal :=
  match decodeCommand v with
  | .instr i => exec i s
  | .rejected _ => .next s

/-- A host write to a register (R17, R18, R21, U8): CTRL acts, IN_LEN stores the value while not BUSY, every other register ignores
the write. -/
def writeReg (n v : Nat) (s : State) : Host.Outcome State Fault Refusal :=
  if n = 0 then writeCtrl v s
  else if n = 6 then if s.busy then .refused .inputWriteWhileBusy else .next { s with inLen := v }
  else if n ≤ 22 then .next s
  else .refused .noSuchRegister

/-- A host write of bytes into IN (R32, R203, R204). -/
def writeIn (off : Nat) (bytes : List Byte) (s : State) : Host.Outcome State Fault Refusal :=
  if s.busy then .refused .inputWriteWhileBusy
  else .next { s with inMem := Memory.writeBytes s.inMem off bytes }

/-- One action of the outside, or the block's turn (R203). -/
def hostStep (a : HostAct) (s : State) : Host.Outcome State Fault Refusal :=
  match a with
  | .pass => blockStep s
  | .writeIn off bytes => writeIn off bytes s
  | .writeReg n v => writeReg n v s
  | .read t => if (hostRead t s).isSome then .next s else .refused .readOutsideRights
  | .reset => .next s.doReset

/-- One step of the block and its outside: the next listed action, or the block's own step when none is listed (log 5). -/
def stepAll (s : State) : Host.Outcome State Fault Refusal :=
  match s.host with
  | [] => blockStep s
  | a :: rest => hostStep a { s with host := rest }

/-! ## Placing one instruction where the next step fetches it (log 8) -/

/-- A record at OFF, with IN_LEN reaching to its end, the block parsing and nothing from the outside. -/
def placeRecord (bytes : List Byte) (s : State) : State :=
  { s with
    phase := .parse
    inMem := Memory.writeBytes s.inMem s.off bytes
    inLen := max s.inLen (s.off + bytes.length)
    host := [] }

/-- A row with this tag and a body of zeros at row ROW of FBUF, with the STRIDE of WIDTH, PREV of that size, and the block in
DEFILTER with ROW < NROWS. -/
def placeRow (w : Nat) (s : State) : State :=
  let bytes := tableRow s.geom.width.toNat w
  { s with
    phase := .defilter
    stride := bytes.length
    fbuf := List.replicate (s.row * bytes.length) 0#8 ++ bytes
    nrows := s.row + 1
    prev := if s.prev.length = bytes.length then s.prev else List.replicate bytes.length 0#8
    host := [] }

/-- A host write of this value to CTRL as the next action. -/
def placeCommand (w : Nat) (s : State) : State := { s with host := [.writeReg 0 w] }

end Sys2Proof.Machine
end

