-- ==== Sys2Proof/Machine/Step.lean ====
section
/-! DEFINITION. The step of the machine, and the placing of one instruction where it is fetched. -/

namespace Sys2Proof.Machine

open Sys2Proof

/-- One step: the next action of the outside, or the block's own step (spec/10_state.md R30). -/
def step (s : State) : Host.Outcome State Fault Refusal := stepAll s

/-- The state with one instruction of spec/opcode_table.json placed where `step` fetches next (log 8): fewer than 8 bits a CTRL
value, 8 bits a filter tag, more a KIND. -/
def State.withFetchWord (s : State) (nbits w : Nat) : State :=
  if nbits < 8 then placeCommand w s
  else if nbits = 8 then placeRow w s
  else placeRecord (tableRecord w) s

end Sys2Proof.Machine
end

