-- ==== Sys2Proof/Safety.lean ====
section
/-! DEFINITION. The vocabulary of the claims: what is true of every state a run can reach (spec/10_state.md, 20_memory.md,
60_exceptions.md R170 and R178, 70_reset_and_hazards.md R211), when a row is the reconstruction of another
(44_scanline_reconstructor.md R142 to R150), and which parts of the state a claim sets aside. -/

namespace Sys2Proof.Machine

open Sys2Proof

/-! ## Words for the phases -/

/-- IDLE, PARSE, GEOM: no STRIDE yet. -/
def Phase.beforeStride : Phase → Bool
  | .idle | .parse | .geom => true
  | .inflate | .slice | .defilter | .done | .error => false

/-- IDLE to INFLATE: no FBUF yet. -/
def Phase.beforeFbuf : Phase → Bool
  | .idle | .parse | .geom | .inflate => true
  | .slice | .defilter | .done | .error => false

/-- IDLE to SLICE: no rows yet. -/
def Phase.beforeRows : Phase → Bool
  | .idle | .parse | .geom | .inflate | .slice => true
  | .defilter | .done | .error => false

/-- GEOM to DONE: the terminator has been committed. -/
def Phase.afterParse : Phase → Bool
  | .geom | .inflate | .slice | .defilter | .done => true
  | .idle | .parse | .error => false

/-- INFLATE to DONE: the geometry query has been answered. -/
def Phase.afterGeom : Phase → Bool
  | .inflate | .slice | .defilter | .done => true
  | .idle | .parse | .geom | .error => false

/-- DEFILTER and DONE: FBUF is cut into rows. -/
def Phase.hasRows : Phase → Bool
  | .defilter | .done => true
  | .idle | .parse | .geom | .inflate | .slice | .error => false

/-- The transitions the block makes on its own (R15), staying included. -/
def blockMove : Phase → Phase → Bool
  | .idle, q => decide (q = .idle)
  | .parse, q => decide (q = .parse ∨ q = .geom ∨ q = .error)
  | .geom, q => decide (q = .inflate ∨ q = .error)
  | .inflate, q => decide (q = .slice ∨ q = .error)
  | .slice, q => decide (q = .defilter ∨ q = .error)
  | .defilter, q => decide (q = .defilter ∨ q = .done ∨ q = .error)
  | .done, q => decide (q = .done)
  | .error, q => decide (q = .error)

/-! ## Invariants -/

/-- The cursor, the flags and the stage registers of a run (R13, R15, R16, R22, R24, R80, R211). -/
abbrev StageOk (s : State) : Prop :=
  s.recStart ≤ s.off
  ∧ (s.busy = true → s.off ≤ s.inLen)
  ∧ (s.phase = .parse → s.flags.endSeen = false)
  ∧ (s.phase.afterParse = true → s.flags.endSeen = true)
  ∧ (s.phase.afterGeom = true →
      s.flags.hdrSeen = true ∧ s.flags.dataBeforeHdr = false ∧ s.stride = s.geom.width.toNat * 3 + 1)
  ∧ (s.phase.beforeStride = true → s.stride = 0)
  ∧ (s.phase.beforeFbuf = true → s.fbuf = [])
  ∧ (s.phase.beforeRows = true → s.nrows = 0 ∧ s.row = 0)

/-- GRID, TAGLOG and the row registers (R14, R27, R46, R140, R152, R153, R178, R211). -/
abbrev GridOk (s : State) : Prop :=
  s.tagLog.length = s.grid.length
  ∧ (∀ r ∈ s.grid, r.length = s.geom.width.toNat * 3)
  ∧ (∀ t ∈ s.tagLog, t.toNat ≤ 4)
  ∧ (s.phase.hasRows = true →
      s.fbuf.length = s.nrows * s.stride ∧ s.row ≤ s.nrows ∧ s.grid.length = s.row ∧ s.prev.length = s.stride)
  ∧ (s.phase = .done → s.row = s.nrows)
  ∧ (s.phase.hasRows = false → s.grid = [])

/-- The error registers say what the retained registers show (R170 to R175, R178): at most one error, ERR_SUB 1 only for a filter tag,
no image in ERROR. -/
abbrev ErrorOk (s : State) : Prop :=
  (s.phase ≠ .error → s.err = ErrRegs.zero)
  ∧ (s.phase = .error →
      s.grid = [] ∧ s.tagLog = []
      ∧ ((s.err.code = 1#3 ∧ s.err.sub = 0#1 ∧ s.err.info0 = s.off)
        ∨ (s.err.code = 2#3 ∧ s.err.sub = 0#1 ∧ s.err.info0 = s.recStart
            ∧ s.off = s.recStart + 12 + s.err.info1 ∧ s.err.info1 < 13)
        ∨ (s.err.code = 2#3 ∧ s.err.sub = 1#1 ∧ s.err.info0 = s.row ∧ 5 ≤ s.err.info1 ∧ s.err.info1 ≤ 255)
        ∨ (s.err.code = 3#3 ∧ s.err.sub = 0#1 ∧ s.err.info0 = bit s.flags.hdrSeen
            ∧ s.err.info1 = bit s.flags.dataBeforeHdr ∧ (s.err.info0 = 0 ∨ s.err.info1 = 1))
        ∨ (s.err.code = 4#3 ∧ s.err.sub = 0#1 ∧ s.err.info0 = s.fbuf.length
            ∧ s.err.info1 = s.fbuf.length % s.stride ∧ s.err.info1 ≠ 0)
        ∨ (s.err.code = 5#3 ∧ s.err.sub = 0#1 ∧ s.err.info0 = s.zbuf.length ∧ s.err.info1 = 0)))

/-! ## REC_LOG and ZBUF -/

/-- The four bytes of a payload at `o`, most significant first, as one word (R69, R48). -/
def word4 (p : List Byte) (o : Nat) : Word32 := byteAt p o ++ byteAt p (o + 1) ++ byteAt p (o + 2) ++ byteAt p (o + 3)

/-- One byte of a payload, zero-extended (R69). -/
def word1 (p : List Byte) (o : Nat) : Word32 := (byteAt p o).setWidth 32

/-- F0 to F6 of a record of this class with this payload (R63, R68, R69): the schema's fields from its table, the others 0. -/
def fieldsOf (kc : KClass) (p : List Byte) : List Word32 :=
  match kc with
  | .header => [word4 p 0, word4 p 4, word1 p 8, word1 p 9, word1 p 10, word1 p 11, word1 p 12]
  | .physdim => [word4 p 0, word4 p 4, word1 p 8, 0#32, 0#32, 0#32, 0#32]
  | .gamma => [word4 p 0, 0#32, 0#32, 0#32, 0#32, 0#32, 0#32]
  | .intent => [word1 p 0, 0#32, 0#32, 0#32, 0#32, 0#32, 0#32]
  | .term | .idata | .other => [0#32, 0#32, 0#32, 0#32, 0#32, 0#32, 0#32]

/-- The records of a log lie one after another in IN, from offset `a` to offset `e` (R13, R60, R68, R112). -/
def logChain : Nat → List Descriptor → Nat → Bool
  | a, [], e => decide (a = e)
  | a, d :: ds, e =>
    decide (d.start = a) && decide (d.payloadOff = a + 8) && logChain (a + 12 + d.length.toNat) ds e

/-- A descriptor's class is its kind's, and it has the fields of its class, the others 0 (R62, R63, R68, R92). -/
abbrev DescriptorOk (d : Descriptor) : Prop :=
  d.kclass = classify d.kind
  ∧ d.nf.toNat = (schema d.kclass).length
  ∧ schemaLen d.kclass ≤ d.length.toNat
  ∧ (d.nf.toNat = 0 → d.f0 = 0#32)
  ∧ (d.nf.toNat ≤ 1 → d.f1 = 0#32 ∧ d.f2 = 0#32)
  ∧ (d.nf.toNat ≤ 3 → d.f3 = 0#32 ∧ d.f4 = 0#32 ∧ d.f5 = 0#32 ∧ d.f6 = 0#32)

/-- The geometry of a record log: that of its first header, all 0 without one (R23, R113). -/
def logGeometry (l : List Descriptor) : Geometry :=
  match l.find? (fun d => decide (d.kclass = .header)) with
  | some d => geometryOf d
  | none => Geometry.zero

/-- The flags of a record log (R16): a header is in it, image data stands before the first header, a terminator is in it. -/
def logFlags (l : List Descriptor) : Flags :=
  { hdrSeen := l.any (fun d => decide (d.kclass = .header))
    dataBeforeHdr := (l.takeWhile (fun d => decide (d.kclass ≠ .header))).any (fun d => decide (d.kclass = .idata))
    endSeen := l.any (fun d => decide (d.kclass = .term)) }

/-- Where the log ends: before the failing record if the run ended inside a record, else at OFF (R112, R178, R180). -/
def State.logEnd (s : State) : Nat :=
  if s.err.code = 1#3 ∨ (s.err.code = 2#3 ∧ s.err.sub = 0#1) then s.recStart else s.off

/-- The payload bytes a descriptor points to in IN (R42). -/
def State.payloadOf (s : State) (d : Descriptor) : List Byte := s.memRead d.payloadOff d.length.toNat

/-- A descriptor is the record that stands in IN at its START (R60, R68, R90): LENGTH, KIND and CRC are the big-endian values of
their four bytes there, F0 to F6 those of the payload between them. -/
abbrev RecordOk (s : State) (d : Descriptor) : Prop :=
  d.length = beWord (s.memRead d.start 4)
  ∧ d.kind = beWord (s.memRead (d.start + 4) 4)
  ∧ d.crc = beWord (s.memRead (d.start + 8 + d.length.toNat) 4)
  ∧ [d.f0, d.f1, d.f2, d.f3, d.f4, d.f5, d.f6] = fieldsOf d.kclass (s.payloadOf d)

/-- REC_LOG holds exactly the records passed so far, as they stand in IN while the block is BUSY (the host may overwrite IN after
that, R204), and the flags and the geometry are those of the log (R42, R111 to R116). -/
abbrev LogOk (s : State) : Prop :=
  logChain 0 s.recLog s.logEnd = true
  ∧ (∀ d ∈ s.recLog, DescriptorOk d)
  ∧ (s.busy = true → ∀ d ∈ s.recLog, RecordOk s d)
  ∧ (∀ d ∈ s.recLog.dropLast, d.kclass ≠ .term)
  ∧ s.flags = logFlags s.recLog
  ∧ s.geom = logGeometry s.recLog

/-- While BUSY, ZBUF is the concatenation of the payloads of the image-data records logged, in stream order (R44, R115). -/
abbrev ZbufOk (s : State) : Prop :=
  s.busy = true → s.zbuf = (s.recLog.filter (fun d => decide (d.kclass = .idata))).flatMap s.payloadOf

/-! ## Reconstruction -/

/-- The predictor a tag stands for (R67), written from the table: 0, a, b, floor((a+b)/2), paethPredictor(a,b,c). -/
def predict (t : Nat) (a b c : Byte) : Nat :=
  match t with
  | 0 => 0
  | 1 => a.toNat
  | 2 => b.toNat
  | 3 => (a.toNat + b.toNat) / 2
  | _ => (paethPredictor a b c).toNat

/-- The byte three positions to the left of 0-based sample `k`, 0 in the first pixel (R142). -/
def leftSample (row : List Byte) (k : Nat) : Byte := if k < 3 then 0#8 else byteAt row (k - 3)

/-- `out` is the reconstruction of `body` under the filter of tag `t`, with `above` the reconstructed row above (R141 to R150):
every sample is the filtered sample plus the predictor of the reconstructed neighbours, modulo 256. -/
abbrev Reconstructs (t : Nat) (above body out : List Byte) : Prop :=
  out.length = body.length
  ∧ ∀ k, k < body.length →
      (byteAt out k).toNat =
        ((byteAt body k).toNat + predict t (leftSample out k) (byteAt above k) (leftSample above k)) % 256

/-- Row `i` of FBUF (R65). -/
def State.fbufRow (s : State) (i : Nat) : List Byte := (s.fbuf.drop (i * s.stride)).take s.stride

/-- The reconstructed row above row `i`: zeros above row 0 (R142). -/
def State.rowAbove (s : State) (i : Nat) : List Byte :=
  match i with
  | 0 => List.replicate (s.geom.width.toNat * 3) 0#8
  | j + 1 => s.grid.getD j []

/-- Every GRID row is the reconstruction of its FBUF row, TAGLOG holds the rows' tags, and PREV holds the last reconstructed row
(R12, R27, R46, R211). -/
abbrev ReconOk (s : State) : Prop :=
  (∀ i, i < s.grid.length →
      byteAt s.tagLog i = byteAt (s.fbufRow i) 0
      ∧ Reconstructs (byteAt (s.fbufRow i) 0).toNat (s.rowAbove i) (s.fbufRow i).tail (s.grid.getD i []))
  ∧ (s.phase = .defilter → s.prev.tail = s.rowAbove s.row)

/-! ## Parts a claim sets aside -/

/-- Applies a function to the state of a next outcome. -/
def mapNext (f : State → State) (o : Host.Outcome State Fault Refusal) : Host.Outcome State Fault Refusal :=
  match o with
  | .next s => .next (f s)
  | .fault r => .fault r
  | .refused r => .refused r

/-- Sets the CRC of every logged descriptor aside. -/
def forgetCrc (s : State) : State := { s with recLog := s.recLog.map (fun d => { d with crc := 0#32 }) }

/-- Sets aside the six geometry registers that nothing inside the block reads (R23, R120, R122). -/
def forgetFormat (s : State) : State := { s with geom := { Geometry.zero with width := s.geom.width } }

/-- Sets aside IN and IN_LEN. -/
def forgetInput (s : State) : State := { s with inMem := [], inLen := 0 }

/-- Sets aside what is loaded anew by every ROW step: the operand latches and CUR (R11, R12). -/
def forgetScratch (s : State) : State := { s with latch := Latches.zero, cur := [] }

end Sys2Proof.Machine
end

