-- ==== Sys2Proof/Certificates/Slice0/Obligations.lean ====
section
/-! DEFINITION. The statements for the provers, each a claim of the spec's numbered rules about the machine. -/

open Sys2Proof Sys2Proof.Machine

/-! ## Encodings -/

/-- Decoding what the encoder writes gives the instruction back, for every instruction that has an encoding (R60, R62, R65, R67,
R73). -/
def Obligations.DecodeOfEncode : Prop :=
  ∀ i : Instr, i.wellFormed = true → decode i.stream (encode i) = .instr i

/-- A record or a row that decodes is well formed, belongs to its stream, and encodes to exactly the bytes it was read from: no bit
is lost and no two instructions share bytes (R60, R65, R74). -/
def Obligations.EncodeOfDecode : Prop :=
  ∀ (st : Stream) (bs : List Byte) (i : Instr), st ≠ .command → decode st bs = .instr i →
    i.wellFormed = true ∧ i.stream = st ∧ encode i = bs

/-- Records are decoded in stream order: whatever follows a record, it decodes to itself and the cursor stands just past it (R60,
R71). -/
def Obligations.RecordDecodesBeforeAnything : Prop :=
  ∀ (i : Instr) (rest : List Byte) (o : Nat), i.stream = .record → i.wellFormed = true →
    decodeRecord { rest := encode i ++ rest, off := o } = .ok i { rest := rest, off := o + (encode i).length }

/-- Words written out from the spec's encodings decode to what they stand for: records (R60, R62), rows (R65,
R67) and START (R73), the records at the default KIND values the model takes (log 1). -/
def Obligations.WordsOfTheSpecDecode : Prop :=
  decode .record [0x00#8, 0x00#8, 0x00#8, 0x04#8, 0x49#8, 0x44#8, 0x41#8, 0x54#8, 0x00#8, 0x01#8, 0x02#8, 0x03#8, 0x40#8, 0xDE#8,
      0xBE#8, 0x08#8] = .instr (.idata [0x00#8, 0x01#8, 0x02#8, 0x03#8] 0x40DEBE08#32)
  ∧ decode .record [0x00#8, 0x00#8, 0x00#8, 0x00#8, 0x49#8, 0x45#8, 0x4E#8, 0x44#8, 0xAE#8, 0x42#8, 0x60#8, 0x82#8]
      = .instr (.term [] 0xAE426082#32)
  ∧ decode .record [0x00#8, 0x00#8, 0x00#8, 0x00#8, 0x49#8, 0x48#8, 0x44#8, 0x72#8, 0x00#8, 0x00#8, 0x00#8, 0x00#8]
      = .instr (.other 0x49484472#32 [] 0#32)
  ∧ decode .row [0x02#8, 0x07#8, 0x08#8, 0x09#8] = .instr (.up [0x07#8, 0x08#8, 0x09#8])
  ∧ decode .row [0x05#8, 0x00#8, 0x00#8, 0x00#8] = .instr (.illegal 0x05#8 [0x00#8, 0x00#8, 0x00#8])
  ∧ decode .command [0x03#8] = .instr .start

/-- CLASSIFY is exact equality with one of six kinds, OTHER for every other value (R91). -/
def Obligations.ClassifyByExactEquality : Prop :=
  Config.knownKinds.Nodup ∧ ∀ k : Word32,
    (classify k = .header ↔ k = Config.kindHeader) ∧ (classify k = .intent ↔ k = Config.kindIntent)
    ∧ (classify k = .physdim ↔ k = Config.kindPhysdim) ∧ (classify k = .gamma ↔ k = Config.kindGamma)
    ∧ (classify k = .term ↔ k = Config.kindTerm) ∧ (classify k = .idata ↔ k = Config.kindIdata)
    ∧ (classify k = .other ↔ k ∉ Config.knownKinds)

/-- TAKE returns exactly the bytes asked for and advances by their number, or fails and moves nothing (R81, R83). -/
def Obligations.TakeAllOrNothing : Prop :=
  ∀ (n : Nat) (c : Cursor),
    (n ≤ c.rest.length → ∃ r c', c.take n = .ok r c' ∧ r.length = n ∧ r ++ c'.rest = c.rest ∧ c'.off = c.off + n)
    ∧ (c.rest.length < n → c.take n = .short c.off n)

/-! ## Records -/

/-- HEADER: the first one of a run hoists its seven fields, a later one is logged only, one shorter than 13 bytes is
MalformedRecord (R93, R113). -/
def Obligations.HeaderHoistsOnce : Prop :=
  ∀ (p : List Byte) (crc : Word32) (s : State), s.phase = .parse → p.length < 2 ^ 32 →
    (p.length < 13 →
      exec (.header p crc) s = .next { s with
        recStart := s.off, off := s.off + 12 + p.length, grid := [], tagLog := [], phase := .error
        err := { code := 2#3, sub := 0#1, info0 := s.off, info1 := p.length } })
    ∧ (13 ≤ p.length →
      exec (.header p crc) s = .next { s with
        recStart := s.off, off := s.off + 12 + p.length
        recLog := s.recLog ++ [{
          start := s.off, length := BitVec.ofNat 32 p.length, kind := Config.kindHeader, kclass := .header, payloadOff := s.off + 8
          crc := crc, nf := 7#3, f0 := word4 p 0, f1 := word4 p 4, f2 := word1 p 8, f3 := word1 p 9, f4 := word1 p 10
          f5 := word1 p 11, f6 := word1 p 12 }]
        geom := if s.flags.hdrSeen then s.geom else {
          width := word4 p 0, height := word4 p 4, bitDepth := byteAt p 8, colorModel := byteAt p 9, compression := byteAt p 10
          filterMethod := byteAt p 11, interlace := byteAt p 12 }
        flags := { s.flags with hdrSeen := true } })

/-- INTENT, PHYSDIM and GAMMA: the descriptor with the class's fields is logged and nothing else happens (R94, R95, R96). -/
def Obligations.MetadataRecordsAreLogged : Prop :=
  ∀ (p : List Byte) (crc : Word32) (s : State), s.phase = .parse → p.length < 2 ^ 32 →
    (1 ≤ p.length →
      exec (.intent p crc) s = .next { s with
        recStart := s.off, off := s.off + 12 + p.length
        recLog := s.recLog ++ [{
          start := s.off, length := BitVec.ofNat 32 p.length, kind := Config.kindIntent, kclass := .intent, payloadOff := s.off + 8
          crc := crc, nf := 1#3, f0 := word1 p 0, f1 := 0#32, f2 := 0#32, f3 := 0#32, f4 := 0#32, f5 := 0#32, f6 := 0#32 }] })
    ∧ (9 ≤ p.length →
      exec (.physdim p crc) s = .next { s with
        recStart := s.off, off := s.off + 12 + p.length
        recLog := s.recLog ++ [{
          start := s.off, length := BitVec.ofNat 32 p.length, kind := Config.kindPhysdim, kclass := .physdim, payloadOff := s.off + 8
          crc := crc, nf := 3#3, f0 := word4 p 0, f1 := word4 p 4, f2 := word1 p 8, f3 := 0#32, f4 := 0#32, f5 := 0#32
          f6 := 0#32 }] })
    ∧ (4 ≤ p.length →
      exec (.gamma p crc) s = .next { s with
        recStart := s.off, off := s.off + 12 + p.length
        recLog := s.recLog ++ [{
          start := s.off, length := BitVec.ofNat 32 p.length, kind := Config.kindGamma, kclass := .gamma, payloadOff := s.off + 8
          crc := crc, nf := 1#3, f0 := word4 p 0, f1 := 0#32, f2 := 0#32, f3 := 0#32, f4 := 0#32, f5 := 0#32, f6 := 0#32 }] })

/-- OTHER: a record of any kind that is none of the six is logged and nothing else happens (R99). -/
def Obligations.OtherRecordsAreLogged : Prop :=
  ∀ (k : Word32) (p : List Byte) (crc : Word32) (s : State), s.phase = .parse → p.length < 2 ^ 32 → k ∉ Config.knownKinds →
    exec (.other k p crc) s = .next { s with
      recStart := s.off, off := s.off + 12 + p.length
      recLog := s.recLog ++ [{
        start := s.off, length := BitVec.ofNat 32 p.length, kind := k, kclass := .other, payloadOff := s.off + 8, crc := crc
        nf := 0#3, f0 := 0#32, f1 := 0#32, f2 := 0#32, f3 := 0#32, f4 := 0#32, f5 := 0#32, f6 := 0#32 }] }

/-- TERM: the terminator is logged, END_SEEN is set, and the PARSE phase ends with OFF just past it, whatever its payload (R97,
R116). -/
def Obligations.TerminatorEndsParsing : Prop :=
  ∀ (p : List Byte) (crc : Word32) (s : State), s.phase = .parse → p.length < 2 ^ 32 →
    exec (.term p crc) s = .next { s with
      recStart := s.off, off := s.off + 12 + p.length, phase := .geom, flags := { s.flags with endSeen := true }
      recLog := s.recLog ++ [{
        start := s.off, length := BitVec.ofNat 32 p.length, kind := Config.kindTerm, kclass := .term, payloadOff := s.off + 8
        crc := crc, nf := 0#3, f0 := 0#32, f1 := 0#32, f2 := 0#32, f3 := 0#32, f4 := 0#32, f5 := 0#32, f6 := 0#32 }] }

/-- IDATA: the payload joins ZBUF whether or not a header has been seen, and DATA_BEFORE_HDR is set if none has (R98, R114,
R115). -/
def Obligations.ImageDataJoinsZbuf : Prop :=
  ∀ (p : List Byte) (crc : Word32) (s : State), s.phase = .parse → p.length < 2 ^ 32 →
    exec (.idata p crc) s = .next { s with
      recStart := s.off, off := s.off + 12 + p.length, zbuf := s.zbuf ++ p
      flags := { s.flags with dataBeforeHdr := if s.flags.hdrSeen then s.flags.dataBeforeHdr else true }
      recLog := s.recLog ++ [{
        start := s.off, length := BitVec.ofNat 32 p.length, kind := Config.kindIdata, kclass := .idata, payloadOff := s.off + 8
        crc := crc, nf := 0#3, f0 := 0#32, f1 := 0#32, f2 := 0#32, f3 := 0#32, f4 := 0#32, f5 := 0#32, f6 := 0#32 }] }

/-- The two causes of MalformedRecord: a payload shorter than its schema, sub 0, after the whole record was consumed and with
nothing committed; a filter tag above 4, sub 1, with no sample of the row transformed (R172). -/
def Obligations.MalformedRecordCauses : Prop :=
  (∀ (k : Word32) (p : List Byte) (crc : Word32) (s : State), s.phase = .parse → p.length < 2 ^ 32 →
    (k = Config.kindHeader ∧ p.length < 13) ∨ (k = Config.kindIntent ∧ p.length < 1) ∨ (k = Config.kindPhysdim ∧ p.length < 9)
      ∨ (k = Config.kindGamma ∧ p.length < 4) →
    exec (recordOf k p crc) s = .next { s with
      recStart := s.off, off := s.off + 12 + p.length, grid := [], tagLog := [], phase := .error
      err := { code := 2#3, sub := 0#1, info0 := s.off, info1 := p.length } })
  ∧ (∀ (t : Byte) (body : List Byte) (s : State), 4 < t.toNat →
    s.phase = .defilter → s.row < s.nrows → body.length + 1 = s.stride → s.prev.length = s.stride →
    exec (.illegal t body) s = .next { s with
      cur := t :: body, grid := [], tagLog := [], phase := .error
      err := { code := 2#3, sub := 1#1, info0 := s.row, info1 := t.toNat } })

/-- What no record touches: IN byte by byte, IN_LEN, the row registers, FBUF, the row buffers and the latches, and the host's
actions; REC_LOG and ZBUF only grow; GRID and TAGLOG are kept but for an error entry, which empties them (R50, R111, R178). -/
def Obligations.RecordsLeaveTheRest : Prop :=
  ∀ (i : Instr) (s t : State), i.stream = .record → exec i s = .next t →
    (∀ a, t.inByte a = s.inByte a) ∧ t.inLen = s.inLen ∧ t.row = s.row ∧ t.stride = s.stride ∧ t.nrows = s.nrows
    ∧ t.fbuf = s.fbuf ∧ t.cur = s.cur ∧ t.prev = s.prev ∧ t.latch = s.latch ∧ t.host = s.host
    ∧ (∃ l, l.length ≤ 1 ∧ t.recLog = s.recLog ++ l) ∧ (∃ z, t.zbuf = s.zbuf ++ z)
    ∧ ((t.phase ≠ .error ∧ t.grid = s.grid ∧ t.tagLog = s.tagLog ∧ t.err = s.err)
      ∨ (t.phase = .error ∧ t.grid = [] ∧ t.tagLog = [] ∧ t.recLog = s.recLog ∧ t.zbuf = s.zbuf ∧ t.flags = s.flags
          ∧ t.geom = s.geom))

/-- The checksum has no influence but its own place in the descriptor (R64, R100). -/
def Obligations.ChecksumHasNoInfluence : Prop :=
  ∀ (k : Word32) (p : List Byte) (crc crc' : Word32) (s : State),
    mapNext forgetCrc (exec (recordOf k p crc) s) = mapNext forgetCrc (exec (recordOf k p crc') s)

/-! ## The PARSE step -/

/-- A step runs the decoded instruction: in PARSE the record at OFF, in DEFILTER row ROW of FBUF, and for a host write of CTRL the
command it encodes, after that action is taken off the list. -/
def Obligations.StepRunsTheDecodedInstruction : Prop :=
  (∀ (s : State) (i : Instr) (c : Cursor), s.host = [] → s.phase = .parse → decodeRecord s.cursor = .ok i c → step s = exec i s)
  ∧ (∀ (s : State) (i : Instr), s.host = [] → s.phase = .defilter → s.row < s.nrows → s.rowBytes.length = s.stride →
      decodeRow s.rowBytes = .instr i → step s = exec i s)
  ∧ (∀ (s : State) (i : Instr) (v : Nat) (rest : List HostAct), s.host = .writeReg 0 v :: rest → decodeCommand v = .instr i →
      step s = exec i { s with host := rest })

/-- A step runs the record that stands in IN at OFF: if the bytes there are the encoding of a well-formed record, the step is its
meaning, whatever stands after them (R90, R111). -/
def Obligations.StepRunsTheRecordInInput : Prop :=
  ∀ (s : State) (i : Instr), s.host = [] → s.phase = .parse → i.stream = .record → i.wellFormed = true →
    s.off + (encode i).length ≤ s.inLen → s.memRead s.off (encode i).length = encode i → step s = exec i s

/-- OutOfBounds: a read of LENGTH, KIND, PAYLOAD or CHECKSUM for which IN has too few bytes left ends the run; OFF stands at that
field, ERR_INFO0 holds it, ERR_INFO1 the number of bytes asked for, and REC_START the record's offset (R83, R90, R171). -/
def Obligations.OutOfBoundsAtEachField : Prop :=
  ∀ s : State, s.host = [] → s.phase = .parse →
    let left := s.inLen - s.off
    let len := be (s.memRead s.off 4)
    let fails : Nat → Nat → Prop := fun o n =>
      step s = .next { s with
        recStart := s.off, off := o, grid := [], tagLog := [], phase := .error
        err := { code := 1#3, sub := 0#1, info0 := o, info1 := n } }
    (left < 4 → fails s.off 4)
    ∧ (4 ≤ left → left < 8 → fails (s.off + 4) 4)
    ∧ (8 ≤ left → left < 8 + len → fails (s.off + 8) len)
    ∧ (8 + len ≤ left → left < 12 + len → fails (s.off + 8 + len) 4)

/-- Bytes of IN that are not the record's own have no influence on the step that parses it (R41, R117). -/
def Obligations.OtherInputBytesHaveNoInfluence : Prop :=
  ∀ (s : State) (m : Memory) (n : Nat) (i : Instr) (x y : List Byte), s.host = [] → s.phase = .parse → i.stream = .record →
    i.wellFormed = true → s.cursor.rest = encode i ++ x →
    ({ s with inMem := m, inLen := n } : State).cursor.rest = encode i ++ y →
    mapNext forgetInput (step s) = mapNext forgetInput (step { s with inMem := m, inLen := n })

/-! ## GEOM, INFLATE, SLICE, finish -/

/-- The geometry query: MissingHeader without a header or with image data before it, else STRIDE = WIDTH*3 + 1 without wrap
(R119). -/
def Obligations.GeometryQuery : Prop :=
  ∀ s : State, s.host = [] → s.phase = .geom →
    ((s.flags.hdrSeen = false ∨ s.flags.dataBeforeHdr = true) →
      step s = .next { s with
        grid := [], tagLog := [], phase := .error
        err := { code := 3#3, sub := 0#1, info0 := if s.flags.hdrSeen then 1 else 0
                 info1 := if s.flags.dataBeforeHdr then 1 else 0 } })
    ∧ (s.flags.hdrSeen = true → s.flags.dataBeforeHdr = false →
      step s = .next { s with stride := s.geom.width.toNat * 3 + 1, phase := .inflate })

/-- The decompressor is called with the whole of ZBUF; its bytes become FBUF, its failure CorruptStream, for every answer it may
give (R130, R132). -/
def Obligations.InflateCallsTheDecompressor : Prop :=
  ∀ s : State, s.host = [] → s.phase = .inflate →
    step s = .next (match Config.decompress s.zbuf with
      | .bytes r => { s with fbuf := r, phase := .slice }
      | .corruptStream => { s with
          grid := [], tagLog := [], phase := .error
          err := { code := 5#3, sub := 0#1, info0 := s.zbuf.length, info1 := 0 } })

/-- Slicing: an FBUF that is no whole number of rows is TruncatedImageData, else NROWS is counted and PREV is zeroed (R140). -/
def Obligations.SliceCutsRows : Prop :=
  ∀ s : State, s.host = [] → s.phase = .slice → 1 ≤ s.stride →
    (s.fbuf.length % s.stride ≠ 0 →
      step s = .next { s with
        grid := [], tagLog := [], phase := .error
        err := { code := 4#3, sub := 0#1, info0 := s.fbuf.length, info1 := s.fbuf.length % s.stride } })
    ∧ (∀ n, s.fbuf.length = n * s.stride →
      step s = .next { s with nrows := n, row := 0, prev := List.replicate s.stride 0#8, phase := .defilter })

/-- The finish step: after the last row the block is DONE, nothing else changes, GRID has NROWS rows of WIDTH*3 bytes, and the
block has no further step of its own (R153; that waiting is a step that changes nothing is log 5's). -/
def Obligations.FinishStep : Prop :=
  ∀ s : State, s.host = [] → s.phase = .defilter → s.row = s.nrows → GridOk s →
    step s = .next { s with phase := .done }
    ∧ step { s with phase := .done } = .next { s with phase := .done }
    ∧ s.grid.length = s.nrows ∧ ∀ r ∈ s.grid, r.length = s.geom.width.toNat * 3

/-! ## Rows -/

/-- NONE: the row body joins GRID unchanged (R144). -/
def Obligations.NoneKeepsTheRow : Prop :=
  ∀ (body : List Byte) (s : State), s.phase = .defilter → s.row < s.nrows → body.length + 1 = s.stride →
    s.prev.length = s.stride →
    ∃ l, exec (.none body) s = .next { s with
      cur := 0x00#8 :: body, prev := 0x00#8 :: body, latch := l, grid := s.grid ++ [body], tagLog := s.tagLog ++ [0x00#8]
      row := s.row + 1 }

/-- SUB: each sample is the filtered sample plus the reconstructed sample three to its left, modulo 256; PREV plays no part
(R145). -/
def Obligations.SubAddsTheLeftSample : Prop :=
  ∀ (body : List Byte) (s : State), s.phase = .defilter → s.row < s.nrows → body.length + 1 = s.stride →
    s.prev.length = s.stride →
    ∃ out l, exec (.sub body) s = .next { s with
        cur := 0x01#8 :: out, prev := 0x01#8 :: out, latch := l, grid := s.grid ++ [out], tagLog := s.tagLog ++ [0x01#8]
        row := s.row + 1 }
      ∧ out.length = body.length
      ∧ ∀ k, k < body.length → (byteAt out k).toNat =
          ((byteAt body k).toNat + (if k < 3 then 0 else (byteAt out (k - 3)).toNat)) % 256

/-- UP: each sample is the filtered sample plus the reconstructed sample above it, modulo 256 (R146). -/
def Obligations.UpAddsTheSampleAbove : Prop :=
  ∀ (body : List Byte) (s : State), s.phase = .defilter → s.row < s.nrows → body.length + 1 = s.stride →
    s.prev.length = s.stride →
    ∃ out l, exec (.up body) s = .next { s with
        cur := 0x02#8 :: out, prev := 0x02#8 :: out, latch := l, grid := s.grid ++ [out], tagLog := s.tagLog ++ [0x02#8]
        row := s.row + 1 }
      ∧ out.length = body.length
      ∧ ∀ k, k < body.length → (byteAt out k).toNat = ((byteAt body k).toNat + (byteAt s.prev (k + 1)).toNat) % 256

/-- AVERAGE: each sample is the filtered sample plus half the unwrapped sum of the left and the upper sample, rounded down, modulo
256 (R147). -/
def Obligations.AverageAddsTheHalfSum : Prop :=
  ∀ (body : List Byte) (s : State), s.phase = .defilter → s.row < s.nrows → body.length + 1 = s.stride →
    s.prev.length = s.stride →
    ∃ out l, exec (.average body) s = .next { s with
        cur := 0x03#8 :: out, prev := 0x03#8 :: out, latch := l, grid := s.grid ++ [out], tagLog := s.tagLog ++ [0x03#8]
        row := s.row + 1 }
      ∧ out.length = body.length
      ∧ ∀ k, k < body.length → (byteAt out k).toNat =
          ((byteAt body k).toNat
            + ((if k < 3 then 0 else (byteAt out (k - 3)).toNat) + (byteAt s.prev (k + 1)).toNat) / 2) % 256

/-- PAETH: each sample is the filtered sample plus the Paeth predictor of the left, the upper and the upper left sample, modulo 256
(R148). -/
def Obligations.PaethAddsThePredictor : Prop :=
  ∀ (body : List Byte) (s : State), s.phase = .defilter → s.row < s.nrows → body.length + 1 = s.stride →
    s.prev.length = s.stride →
    ∃ out l, exec (.paeth body) s = .next { s with
        cur := 0x04#8 :: out, prev := 0x04#8 :: out, latch := l, grid := s.grid ++ [out], tagLog := s.tagLog ++ [0x04#8]
        row := s.row + 1 }
      ∧ out.length = body.length
      ∧ ∀ k, k < body.length → (byteAt out k).toNat =
          ((byteAt body k).toNat
            + (paethPredictor (if k < 3 then 0#8 else byteAt out (k - 3)) (byteAt s.prev (k + 1))
                (if k < 3 then 0#8 else byteAt s.prev (k - 2))).toNat) % 256

/-- The Paeth predictor is the operand nearest to a + b - c; a wins every tie it is in, b wins a tie with c. This is
the reading spec/90_conflicts.md C1 chooses for R150 (log 12). -/
def Obligations.PaethPicksTheNearest : Prop :=
  ∀ a b c : Byte,
    let p : Int := (a.toNat : Int) + b.toNat - c.toNat
    let d : Byte → Nat := fun x => (p - x.toNat).natAbs
    let r := paethPredictor a b c
    (r = a ∨ r = b ∨ r = c) ∧ d r ≤ d a ∧ d r ≤ d b ∧ d r ≤ d c
    ∧ (d a ≤ d b → d a ≤ d c → r = a)
    ∧ (d b < d a → d b ≤ d c → r = b)
    ∧ (d c < d a → d c < d b → r = c)

/-- Where filters coincide: on the row above which there are only zeros PAETH gives the samples of SUB and UP those of NONE; in a
row of one pixel SUB gives the samples of NONE and PAETH those of UP (R148, R156). -/
def Obligations.FiltersCoincideAtTheEdges : Prop :=
  ∀ (body : List Byte) (s : State), s.phase = .defilter → s.row < s.nrows → body.length + 1 = s.stride →
    s.prev.length = s.stride →
    ∃ tn ts tu tp, exec (.none body) s = .next tn ∧ exec (.sub body) s = .next ts ∧ exec (.up body) s = .next tu
      ∧ exec (.paeth body) s = .next tp
      ∧ ((∀ x, byteAt s.prev (x + 1) = 0#8) → tp.grid = ts.grid ∧ tu.grid = tn.grid)
      ∧ (body.length = 3 → ts.grid = tn.grid ∧ tp.grid = tu.grid)

/-- The left-to-right rule determines the row a ROW step delivers: for a legal tag there is a row that reconstructs the filtered row
below PREV, and every such row is the one that joins GRID (R141, R142, R154). -/
def Obligations.ReconstructionIsUnique : Prop :=
  ∀ (t : Byte) (body : List Byte) (s : State), t.toNat ≤ 4 → s.phase = .defilter → s.row < s.nrows →
    body.length + 1 = s.stride → s.prev.length = s.stride →
    ∃ u, exec (rowOf t body) s = .next u
      ∧ (∃ out, Reconstructs t.toNat s.prev.tail body out)
      ∧ ∀ out, Reconstructs t.toNat s.prev.tail body out → u.grid = s.grid ++ [out] ∧ u.prev = t :: out

/-- What no row touches: IN byte by byte, IN_LEN, the cursor, the flags, the geometry, STRIDE, NROWS, REC_LOG, ZBUF, FBUF and the
host's actions; GRID and TAGLOG grow by one row and one tag and ROW by 1, or an error entry empties them (R45, R50, R141, R178). -/
def Obligations.RowsLeaveTheRest : Prop :=
  ∀ (i : Instr) (s t : State), i.stream = .row → exec i s = .next t →
    (∀ a, t.inByte a = s.inByte a) ∧ t.inLen = s.inLen ∧ t.off = s.off ∧ t.recStart = s.recStart ∧ t.flags = s.flags
    ∧ t.geom = s.geom ∧ t.stride = s.stride ∧ t.nrows = s.nrows ∧ t.recLog = s.recLog ∧ t.zbuf = s.zbuf ∧ t.fbuf = s.fbuf
    ∧ t.host = s.host
    ∧ ((t.phase = s.phase ∧ t.err = s.err ∧ t.row = s.row + 1 ∧ t.prev = t.cur
          ∧ ∃ tag out, t.cur = tag :: out ∧ t.grid = s.grid ++ [out] ∧ t.tagLog = s.tagLog ++ [tag])
      ∨ (t.phase = .error ∧ t.row = s.row ∧ t.prev = s.prev ∧ t.latch = s.latch ∧ t.grid = [] ∧ t.tagLog = []))

/-! ## START, reset and the host -/

/-- START: in IDLE, DONE and ERROR every register of the run takes its reset value and parsing begins, IN and IN_LEN staying; while
BUSY it changes nothing; a host write of CTRL is START exactly if its bit 0 is 1 (R18, R73, R110). That the operand latches stay is
the model's choice (log 6), as are the host's coming actions (log 5). -/
def Obligations.StartBeginsARun : Prop :=
  ∀ s : State,
    (s.busy = false →
      exec .start s = .next { State.reset with
        phase := .parse, inLen := s.inLen, inMem := s.inMem, latch := s.latch, host := s.host })
    ∧ (s.busy = true → exec .start s = .next s)
    ∧ (∀ v rest, s.host = .writeReg 0 v :: rest →
      step s = if v % 2 = 1 then exec .start { s with host := rest } else .next { s with host := rest })

/-- Reset in any phase, BUSY or not, leaves every register 0, every memory empty and the block idle, with no image (R201). That the
host's other coming actions stay is the model's choice (log 5). -/
def Obligations.ResetClearsEverything : Prop :=
  ∀ (s : State) (rest : List HostAct), s.host = .reset :: rest →
    ∃ t, step s = .next t ∧ t.phase = .idle ∧ t.off = 0 ∧ t.recStart = 0 ∧ t.row = 0
      ∧ t.flags = { hdrSeen := false, dataBeforeHdr := false, endSeen := false }
      ∧ t.err = { code := 0#3, sub := 0#1, info0 := 0, info1 := 0 }
      ∧ t.inLen = 0 ∧ t.cursor.rest = []
      ∧ t.geom = { width := 0#32, height := 0#32, bitDepth := 0#8, colorModel := 0#8, compression := 0#8, filterMethod := 0#8,
                   interlace := 0#8 }
      ∧ t.stride = 0 ∧ t.nrows = 0 ∧ t.cur = [] ∧ t.prev = [] ∧ t.recLog = [] ∧ t.zbuf = [] ∧ t.fbuf = [] ∧ t.grid = []
      ∧ t.tagLog = [] ∧ t.host = rest

/-- The machine after reset (R29). The value of the latches, which the spec leaves unspecified, is not part of this. -/
def Obligations.ResetValues : Prop :=
  State.reset.phase = .idle ∧ State.reset.off = 0 ∧ State.reset.recStart = 0 ∧ State.reset.row = 0
  ∧ State.reset.flags = { hdrSeen := false, dataBeforeHdr := false, endSeen := false }
  ∧ State.reset.err = { code := 0#3, sub := 0#1, info0 := 0, info1 := 0 }
  ∧ State.reset.inLen = 0 ∧ State.reset.cursor.rest = []
  ∧ State.reset.geom = { width := 0#32, height := 0#32, bitDepth := 0#8, colorModel := 0#8, compression := 0#8,
                         filterMethod := 0#8, interlace := 0#8 }
  ∧ State.reset.stride = 0 ∧ State.reset.nrows = 0 ∧ State.reset.cur = [] ∧ State.reset.prev = [] ∧ State.reset.recLog = []
  ∧ State.reset.zbuf = [] ∧ State.reset.fbuf = [] ∧ State.reset.grid = [] ∧ State.reset.tagLog = []
  ∧ (∀ n, n ≤ 22 → hostRead (.reg n) State.reset = some (.number 0))

/-- The fields of STATUS are views of PHASE and the flags (R19). -/
def Obligations.StatusFields : Prop :=
  ∀ s : State,
    s.status < 2 ^ 9
    ∧ s.status % 8 = s.phase.code.toNat
    ∧ (s.status.testBit 3 = true ↔
        s.phase = .parse ∨ s.phase = .geom ∨ s.phase = .inflate ∨ s.phase = .slice ∨ s.phase = .defilter)
    ∧ (s.status.testBit 4 = true ↔ s.phase = .done)
    ∧ (s.status.testBit 5 = true ↔ s.phase = .error)
    ∧ s.status.testBit 6 = s.flags.hdrSeen
    ∧ s.status.testBit 7 = s.flags.dataBeforeHdr
    ∧ s.status.testBit 8 = s.flags.endSeen

/-- What the host may read in which phase, and what it gets (R17, R19, R25, R32): STATUS in every phase and nothing else while BUSY;
while not BUSY each register of the file as its number says, and REC_LOG; GRID and TAGLOG only in DONE. A read within these rights
changes nothing, and one outside them has no move (the refusal is log 10's). -/
def Obligations.HostReadRights : Prop :=
  ∀ s : State,
    hostRead (.reg 1) s = some (.number s.status)
    ∧ (s.busy = true → ∀ t, (hostRead t s).isSome = true ↔ t = .reg 1)
    ∧ (s.busy = false → ∀ n, (hostRead (.reg n) s).isSome = true ↔ n ≤ 22)
    ∧ (s.busy = false → ∀ n v,
        (n, v) ∈ [(0, 0), (1, s.status), (2, s.err.code.toNat), (3, s.err.sub.toNat), (4, s.err.info0), (5, s.err.info1),
          (6, s.inLen), (7, s.off), (8, s.recStart), (9, s.recLog.length), (10, s.geom.width.toNat), (11, s.geom.height.toNat),
          (12, s.geom.bitDepth.toNat), (13, s.geom.colorModel.toNat), (14, s.geom.compression.toNat),
          (15, s.geom.filterMethod.toNat), (16, s.geom.interlace.toNat), (17, s.zbuf.length), (18, s.fbuf.length),
          (19, s.stride), (20, s.nrows), (21, s.row), (22, s.grid.length)] →
        hostRead (.reg n) s = some (.number v))
    ∧ (s.busy = false → hostRead .recLog s = some (.recLog s.recLog))
    ∧ (∀ g, hostRead .grid s = some g ↔ s.phase = .done ∧ g = .grid s.grid)
    ∧ (∀ l, hostRead .tagLog s = some l ↔ s.phase = .done ∧ l = .tagLog s.tagLog)
    ∧ (∀ t rest, s.host = .read t :: rest →
        step s = if (hostRead t s).isSome then .next { s with host := rest } else .refused .readOutsideRights)

/-- Loading the input: while not BUSY, bytes the host writes into IN are read back at their offsets and every other byte of IN keeps
its value, a value written to IN_LEN is stored, and nothing else changes; while BUSY neither has a move (R21, R32, R204; the refusal
is log 10's). -/
def Obligations.HostLoadsTheInput : Prop :=
  ∀ (s : State) (rest : List HostAct),
    (∀ o bytes, s.host = .writeIn o bytes :: rest → s.busy = false →
      ∃ m, step s = .next { s with inMem := m, host := rest }
        ∧ (∀ k, k < bytes.length → ({ s with inMem := m } : State).inByte (o + k) = byteAt bytes k)
        ∧ (∀ a, a < o ∨ o + bytes.length ≤ a → ({ s with inMem := m } : State).inByte a = s.inByte a))
    ∧ (∀ v, s.host = .writeReg 6 v :: rest → s.busy = false → step s = .next { s with inLen := v, host := rest })
    ∧ (∀ o bytes, s.host = .writeIn o bytes :: rest → s.busy = true → step s = .refused .inputWriteWhileBusy)
    ∧ (∀ v, s.host = .writeReg 6 v :: rest → s.busy = true → step s = .refused .inputWriteWhileBusy)

/-- A host write to any register but CTRL and IN_LEN is ignored, in every phase (R17). -/
def Obligations.ReadOnlyRegistersIgnoreWrites : Prop :=
  ∀ (s : State) (n v : Nat) (rest : List HostAct), s.host = .writeReg n v :: rest → n ≠ 0 → n ≠ 6 → n ≤ 22 →
    step s = .next { s with host := rest }

/-- In IDLE, DONE and ERROR the block changes nothing by itself (R30; that the model's step answers the same state is log 5's). -/
def Obligations.IdleBlockWaits : Prop :=
  ∀ s : State, s.host = [] → s.busy = false → step s = .next s

/-- Where a meaning or a host write has no move, it stops by name: a record outside PARSE, a row whose ROW step is not enabled, a
register the file does not have (R111, R141, R17; the stops are those of logs 9 and 10). -/
def Obligations.StopsByName : Prop :=
  (∀ (i : Instr) (s : State), i.stream = .record → s.phase ≠ .parse → exec i s = .refused .recordNotEnabled)
  ∧ (∀ (tag : Byte) (body : List Byte) (s : State),
      s.phase ≠ .defilter ∨ s.nrows ≤ s.row ∨ body.length + 1 ≠ s.stride ∨ s.prev.length ≠ s.stride →
      exec (rowOf tag body) s = .refused .rowNotEnabled)
  ∧ (∀ (s : State) (n v : Nat) (rest : List HostAct), s.host = .writeReg n v :: rest → 22 < n →
      step s = .refused .noSuchRegister)

/-! ## Rules of the whole machine -/

/-- The values of PHASE and its only transitions: those of the pipeline when the block takes its step, to PARSE by START, to IDLE by
reset (R15). -/
def Obligations.PhaseTransitions : Prop :=
  [Phase.idle, .parse, .geom, .inflate, .slice, .defilter, .done, .error].map Phase.code
      = [0#3, 1#3, 2#3, 3#3, 4#3, 5#3, 6#3, 7#3]
  ∧ ∀ s t : State, step s = .next t →
    ((s.host = [] ∨ ∃ rest, s.host = .pass :: rest) → blockMove s.phase t.phase = true)
    ∧ (∀ a rest, s.host = a :: rest → a ≠ .pass →
        t.phase = s.phase
        ∨ (a = .reset ∧ t.phase = .idle)
        ∨ (s.busy = false ∧ t.phase = .parse ∧ ∃ v, a = .writeReg 0 v ∧ v % 2 = 1))

/-- Flags once set stay set, and geometry once hoisted stays, until START or reset (R16, R23). -/
def Obligations.FlagsAndGeometryStay : Prop :=
  ∀ s t : State, step s = .next t → (∀ rest, s.host ≠ .reset :: rest) →
    (∀ v rest, v % 2 = 1 → s.host ≠ .writeReg 0 v :: rest) →
    (s.flags.hdrSeen = true → t.flags.hdrSeen = true ∧ t.geom = s.geom)
    ∧ (s.flags.dataBeforeHdr = true → t.flags.dataBeforeHdr = true)
    ∧ (s.flags.endSeen = true → t.flags.endSeen = true)
    ∧ (t.flags.hdrSeen = false → t.geom = s.geom)

/-- IN and IN_LEN are written by the host and by reset alone, never by the block (R21, R41). -/
def Obligations.BlockNeverWritesInput : Prop :=
  ∀ s t : State, step s = .next t → (∀ rest, s.host ≠ .reset :: rest) →
    ((∀ o bytes rest, s.host ≠ .writeIn o bytes :: rest) → ∀ a, t.inByte a = s.inByte a)
    ∧ ((∀ v rest, s.host ≠ .writeReg 6 v :: rest) → t.inLen = s.inLen)

/-- ERROR and its report are left only by START or reset (R20, R179). -/
def Obligations.ErrorStays : Prop :=
  ∀ s t : State, s.phase = .error → step s = .next t →
    (t.phase = .error ∧ t.err = s.err ∧ t.recLog = s.recLog ∧ t.flags = s.flags ∧ t.geom = s.geom)
    ∨ (∃ rest, s.host = .reset :: rest ∧ t.phase = .idle ∧ t.err = ErrRegs.zero)
    ∨ (∃ v rest, s.host = .writeReg 0 v :: rest ∧ v % 2 = 1 ∧ t.phase = .parse ∧ t.off = 0 ∧ t.err = ErrRegs.zero)

/-- Errors are precise: the step that enters ERROR empties GRID and TAGLOG and commits nothing; the records, flags, geometry, ZBUF,
FBUF, row registers and the input keep the value they had (R178, R180). -/
def Obligations.ErrorCommitsNothing : Prop :=
  ∀ s t : State, step s = .next t → s.phase ≠ .error → t.phase = .error →
    t.grid = [] ∧ t.tagLog = [] ∧ t.err.code ≠ 0#3 ∧ t.recLog = s.recLog ∧ t.flags = s.flags ∧ t.geom = s.geom
    ∧ t.zbuf = s.zbuf ∧ t.fbuf = s.fbuf ∧ t.stride = s.stride ∧ t.nrows = s.nrows ∧ t.row = s.row ∧ t.prev = s.prev
    ∧ t.inLen = s.inLen ∧ ∀ a, t.inByte a = s.inByte a

/-- HEIGHT, BIT_DEPTH, COLOR_MODEL, COMPRESSION, FILTER_METHOD and INTERLACE have no influence on any step but on themselves (R120,
R122). -/
def Obligations.FormatHasNoInfluence : Prop :=
  ∀ s : State, mapNext forgetFormat (step s) = mapNext forgetFormat (step (forgetFormat s))

/-- The operand latches and CUR carry nothing from one step to the next (R11, R12). -/
def Obligations.ScratchHasNoInfluence : Prop :=
  ∀ s : State, mapNext forgetScratch (step s) = mapNext forgetScratch (step (forgetScratch s))

/-! ## Invariants -/

/-- The machine after reset meets every invariant below. -/
def Obligations.ResetMeetsTheInvariants : Prop :=
  Memory.wf State.reset.inMem = true ∧ StageOk State.reset ∧ GridOk State.reset ∧ ErrorOk State.reset ∧ LogOk State.reset
  ∧ ZbufOk State.reset ∧ ReconOk State.reset

/-- Every step keeps IN in its canonical form. -/
def Obligations.StepKeepsMemoryForm : Prop :=
  ∀ s t : State, Memory.wf s.inMem = true → step s = .next t → Memory.wf t.inMem = true

/-- Every step keeps the cursor inside IN while BUSY, the flags and STRIDE in step with PHASE (R13, R15, R16, R24, R80). -/
def Obligations.StepKeepsTheStage : Prop :=
  ∀ s t : State, StageOk s → step s = .next t → StageOk t

/-- Every step keeps GRID a list of whole rows of WIDTH*3 bytes, one for each row done, with one legal tag each, and none outside
DEFILTER and DONE (R14, R27, R46, R153). -/
def Obligations.StepKeepsTheGrid : Prop :=
  ∀ s t : State, StageOk s → GridOk s → step s = .next t → GridOk t

/-- Every step keeps the error registers a true report: zero outside ERROR, and in ERROR one of the five errors with the cause's
values, and no image (R170 to R175, R178). -/
def Obligations.StepKeepsTheErrorReport : Prop :=
  ∀ s t : State, ErrorOk s → step s = .next t → ErrorOk t

/-- Every step keeps REC_LOG the records passed so far, one after another in IN, each descriptor holding the LENGTH, KIND, CRC and
fields that stand in IN at its START while the block is BUSY, with a terminator only at the end, and the flags and the geometry
those of the log (R42, R68, R90, R112 to R116). -/
def Obligations.StepKeepsTheLog : Prop :=
  ∀ s t : State, StageOk s → ErrorOk s → LogOk s → step s = .next t → LogOk t

/-- Every step keeps ZBUF the concatenation of the logged image-data payloads as they stand in IN (R44, R115). -/
def Obligations.StepKeepsZbuf : Prop :=
  ∀ s t : State, ZbufOk s → step s = .next t → ZbufOk t

/-- Every step keeps every GRID row the reconstruction of its FBUF row below the GRID row above it (R46, R141, R142, R205). -/
def Obligations.StepKeepsTheReconstruction : Prop :=
  ∀ s t : State, StageOk s → GridOk s → ReconOk s → step s = .next t → ReconOk t

/-- A block that is BUSY always has a step: it neither faults nor refuses (R210 and section Part 1 of 93). -/
def Obligations.BusyBlockSteps : Prop :=
  ∀ s : State, StageOk s → GridOk s → s.busy = true → s.host = [] → ∃ t, step s = .next t

/-- Every run ends: left alone, a BUSY block reaches DONE or ERROR (R210). -/
def Obligations.EveryRunEnds : Prop :=
  ∀ s : State, StageOk s → GridOk s → s.busy = true → s.host = [] →
    ∃ (k : Nat) (t : State), Host.Core.run core k s = .next t ∧ (t.phase = .done ∨ t.phase = .error)

/-- The end of a run (R211): a step by which a BUSY block stops being BUSY, other than a reset, ends in DONE or ERROR. In DONE the
report is clear, the log holds the records as they stand in IN and ends with the terminator, the geometry is the first header's,
FBUF is NROWS whole rows and GRID their reconstruction; in ERROR there is an error and no image. -/
def Obligations.EndOfRun : Prop :=
  ∀ s t : State, StageOk s → GridOk s → ErrorOk s → LogOk s → ReconOk s → s.busy = true → (∀ rest, s.host ≠ .reset :: rest) →
    step s = .next t → t.busy = false →
    (t.phase = .done ∨ t.phase = .error)
    ∧ (∀ d ∈ t.recLog, RecordOk t d)
    ∧ (t.phase = .done →
      t.err.code = 0#3 ∧ t.flags = { hdrSeen := true, dataBeforeHdr := false, endSeen := true }
      ∧ (∃ l d, t.recLog = l ++ [d] ∧ d.kclass = .term ∧ ∀ e ∈ l, e.kclass ≠ .term)
      ∧ t.geom = logGeometry t.recLog
      ∧ t.stride = t.geom.width.toNat * 3 + 1 ∧ t.fbuf.length = t.nrows * t.stride
      ∧ t.row = t.nrows ∧ t.grid.length = t.nrows ∧ t.tagLog.length = t.nrows
      ∧ (∀ x ∈ t.tagLog, x.toNat ≤ 4)
      ∧ (∀ i, i < t.nrows →
          Reconstructs (byteAt (t.fbufRow i) 0).toNat (t.rowAbove i) (t.fbufRow i).tail (t.grid.getD i [])))
    ∧ (t.phase = .error → 1 ≤ t.err.code.toNat ∧ t.err.code.toNat ≤ 5 ∧ t.grid = [] ∧ t.tagLog = [])

/-- Progress (R13, R14, R210): a step of a BUSY block moves PHASE forward, or stays in PARSE and moves OFF by at least 12 within
IN_LEN, or stays in DEFILTER and moves ROW by 1 within NROWS. -/
def Obligations.BusyStepsMakeProgress : Prop :=
  ∀ s t : State, s.busy = true → s.host = [] → step s = .next t →
    s.phase.code.toNat < t.phase.code.toNat
    ∨ (s.phase = .parse ∧ t.phase = .parse ∧ s.off + 12 ≤ t.off ∧ t.off ≤ t.inLen ∧ t.inLen = s.inLen)
    ∨ (s.phase = .defilter ∧ t.phase = .defilter ∧ t.row = s.row + 1 ∧ t.row ≤ t.nrows ∧ t.nrows = s.nrows)
end

