-- ==== Sys2Proof/Laws/Decode.lean ====
section
/-! SUPPORT. What the ByteCursor, the record decoder and the row decoder do: big-endian words and their bytes are inverse, a record
decodes to what its four fields say, and a decoder's answer says what the bytes were. -/

namespace Sys2Proof

/-! ## Big-endian words -/

@[simp] theorem wordBytes_length (w : Word32) : (wordBytes w).length = 4 := rfl

theorem be_four (a b c d : Byte) :
    be [a, b, c, d] = ((a.toNat * 256 + b.toNat) * 256 + c.toNat) * 256 + d.toNat := by simp [be]

theorem be_one (a : Byte) : be [a] = a.toNat := by simp [be]

theorem be_four_lt (a b c d : Byte) : be [a, b, c, d] < 2 ^ 32 := by
  have := a.isLt; have := b.isLt; have := c.isLt; have := d.isLt
  rw [be_four]; omega

/-- The big-endian word of four bytes is their concatenation. -/
theorem beWord_four (a b c d : Byte) : beWord [a, b, c, d] = a ++ b ++ c ++ d := by
  apply BitVec.eq_of_toNat_eq
  have := a.isLt; have := b.isLt; have := c.isLt; have := d.isLt
  rw [beWord, BitVec.toNat_ofNat, Nat.mod_eq_of_lt (be_four_lt a b c d), be_four]
  simp only [BitVec.toNat_append]
  rw [← Nat.shiftLeft_add_eq_or_of_lt (by omega), ← Nat.shiftLeft_add_eq_or_of_lt (by omega),
    ← Nat.shiftLeft_add_eq_or_of_lt (by omega)]
  simp only [Nat.shiftLeft_eq]

theorem toNat_beWord_four (a b c d : Byte) : (beWord [a, b, c, d]).toNat = be [a, b, c, d] := by
  rw [beWord, BitVec.toNat_ofNat, Nat.mod_eq_of_lt (be_four_lt a b c d)]

/-- The word of one byte is the byte, zero-extended. -/
theorem beWord_one (a : Byte) : beWord [a] = a.setWidth 32 := by
  apply BitVec.eq_of_toNat_eq
  have := a.isLt
  rw [beWord, BitVec.toNat_ofNat, be_one, BitVec.toNat_setWidth]

theorem be_wordBytes (w : Word32) : be (wordBytes w) = w.toNat := by
  have := w.isLt
  rw [wordBytes, be_four]
  simp only [BitVec.extractLsb'_toNat, Nat.shiftRight_eq_div_pow]
  omega

theorem beWord_wordBytes (w : Word32) : beWord (wordBytes w) = w := by rw [beWord, be_wordBytes, BitVec.ofNat_toNat, BitVec.setWidth_eq]

/-- The bytes of the word of four bytes are those bytes. -/
theorem wordBytes_beWord_four (a b c d : Byte) : wordBytes (beWord [a, b, c, d]) = [a, b, c, d] := by
  have ha := a.isLt; have hb := b.isLt; have hc := c.isLt; have hd := d.isLt
  simp only [wordBytes, List.cons.injEq, and_true]
  refine ⟨?_, ?_, ?_, ?_⟩ <;> apply BitVec.eq_of_toNat_eq <;>
    simp only [BitVec.extractLsb'_toNat, toNat_beWord_four, be_four, Nat.shiftRight_eq_div_pow] <;> omega

theorem wordBytes_beWord (l : List Byte) (h : l.length = 4) : wordBytes (beWord l) = l := by
  match l, h with
  | [a, b, c, d], _ => exact wordBytes_beWord_four a b c d

theorem be_lt_of_length (l : List Byte) (h : l.length = 4) : be l < 2 ^ 32 := by
  match l, h with
  | [a, b, c, d], _ => exact be_four_lt a b c d

/-! ## The cursor -/

/-- A read of bytes that are there gives them and moves past them. -/
theorem Cursor.take_append (xs ys : List Byte) (o : Nat) :
    Cursor.take xs.length { rest := xs ++ ys, off := o } = .ok xs { rest := ys, off := o + xs.length } := by
  simp [Cursor.take]

theorem Cursor.takeInt_append (xs ys : List Byte) (o : Nat) :
    Cursor.takeInt xs.length { rest := xs ++ ys, off := o } = .ok (be xs) { rest := ys, off := o + xs.length } := by
  rw [Cursor.takeInt, Cursor.take_append]

/-- What TAKE answers (R81, R83). -/
theorem Cursor.take_ok {n : Nat} {c c' : Cursor} {r : List Byte} (h : c.take n = .ok r c') :
    r.length = n ∧ c.rest = r ++ c'.rest ∧ c'.off = c.off + n := by
  rw [Cursor.take] at h
  split at h
  · cases h
  · next hn => cases h; simp; omega

theorem Cursor.take_short {n : Nat} {c : Cursor} {o k : Nat} (h : c.take n = .short o k) :
    c.rest.length < n ∧ o = c.off ∧ k = n := by
  rw [Cursor.take] at h
  split at h
  · next hn => cases h; exact ⟨hn, rfl, rfl⟩
  · cases h

theorem Cursor.takeInt_ok {n v : Nat} {c c' : Cursor} (h : c.takeInt n = .ok v c') :
    ∃ r, v = be r ∧ r.length = n ∧ c.rest = r ++ c'.rest ∧ c'.off = c.off + n := by
  rw [Cursor.takeInt] at h
  split at h
  · next r c1 hr => cases h; exact ⟨r, rfl, Cursor.take_ok hr⟩
  · cases h

theorem Cursor.takeInt_short {n : Nat} {c : Cursor} {o k : Nat} (h : c.takeInt n = .short o k) :
    c.rest.length < n ∧ o = c.off ∧ k = n := by
  rw [Cursor.takeInt] at h
  split at h
  · cases h
  · next o1 k1 hr => cases h; exact Cursor.take_short hr

/-! ## Records -/

theorem encodeRecord_length (k : Word32) (p : List Byte) (crc : Word32) : (encodeRecord k p crc).length = 12 + p.length := by
  simp [encodeRecord]; omega

/-- The four fields of a record decode to its instruction, and the cursor stands past them. -/
theorem decodeRecord_append (k : Word32) (p : List Byte) (crc : Word32) (rest : List Byte) (o : Nat) (hp : p.length < 2 ^ 32) :
    decodeRecord { rest := encodeRecord k p crc ++ rest, off := o }
      = .ok (recordOf k p crc) { rest := rest, off := o + 12 + p.length } := by
  have hlen : be (wordBytes (BitVec.ofNat 32 p.length)) = p.length := by
    rw [be_wordBytes, BitVec.toNat_ofNat, Nat.mod_eq_of_lt hp]
  have h1 := Cursor.takeInt_append (wordBytes (BitVec.ofNat 32 p.length)) (wordBytes k ++ (p ++ (wordBytes crc ++ rest))) o
  have h2 := Cursor.take_append (wordBytes k) (p ++ (wordBytes crc ++ rest)) (o + 4)
  have h3 := Cursor.take_append p (wordBytes crc ++ rest) (o + 4 + 4)
  have h4 := Cursor.takeInt_append (wordBytes crc) rest (o + 4 + 4 + p.length)
  simp only [wordBytes_length] at h1 h2 h4
  rw [decodeRecord, encodeRecord]
  simp only [List.append_assoc, h1, h2, hlen, h3, h4, beWord_wordBytes, be_wordBytes, BitVec.ofNat_toNat, BitVec.setWidth_eq]
  congr 2
  omega

/-- What a record that decodes was: its four fields in their order (R60, R90). -/
theorem decodeRecord_ok {c c' : Cursor} {i : Instr} (h : decodeRecord c = .ok i c') :
    ∃ k p crc, i = recordOf k p crc ∧ p.length < 2 ^ 32 ∧ c.rest = encodeRecord k p crc ++ c'.rest
      ∧ c'.off = c.off + 12 + p.length := by
  rw [decodeRecord] at h
  split at h
  · cases h
  · next len c1 h1 =>
    split at h
    · cases h
    · next kind c2 h2 =>
      split at h
      · cases h
      · next p c3 h3 =>
        split at h
        · cases h
        · next crc c4 h4 =>
          cases h
          obtain ⟨l, rfl, hl, hr1, ho1⟩ := Cursor.takeInt_ok h1
          obtain ⟨hk, hr2, ho2⟩ := Cursor.take_ok h2
          obtain ⟨hp, hr3, ho3⟩ := Cursor.take_ok h3
          obtain ⟨x, rfl, hx, hr4, ho4⟩ := Cursor.takeInt_ok h4
          refine ⟨beWord kind, p, BitVec.ofNat 32 (be x), rfl, hp ▸ be_lt_of_length l hl, ?_, ?_⟩
          · rw [encodeRecord, hp, ← beWord, ← beWord, wordBytes_beWord l hl, wordBytes_beWord kind hk, wordBytes_beWord x hx]
            rw [hr1, hr2, hr3, hr4]; simp only [List.append_assoc]
          · omega

/-- Where a record's reads fail (R90, R171): at the first of its four fields that is not whole. -/
theorem decodeRecord_short {c : Cursor} {o n : Nat} (h : decodeRecord c = .short o n) :
    (c.rest.length < 4 ∧ o = c.off ∧ n = 4)
    ∨ (4 ≤ c.rest.length ∧ c.rest.length < 8 ∧ o = c.off + 4 ∧ n = 4)
    ∨ (8 ≤ c.rest.length ∧ c.rest.length < 8 + be (c.rest.take 4) ∧ o = c.off + 8 ∧ n = be (c.rest.take 4))
    ∨ (8 + be (c.rest.take 4) ≤ c.rest.length ∧ c.rest.length < 12 + be (c.rest.take 4)
        ∧ o = c.off + 8 + be (c.rest.take 4) ∧ n = 4) := by
  rw [decodeRecord] at h
  split at h
  · next o1 n1 h1 => cases h; exact .inl (Cursor.takeInt_short h1)
  · next len c1 h1 =>
    obtain ⟨l, rfl, hl, hr1, ho1⟩ := Cursor.takeInt_ok h1
    have ht : c.rest.take 4 = l := by rw [hr1, ← hl, List.take_left]
    have hc : c.rest.length = 4 + c1.rest.length := by rw [hr1]; simp [hl]
    rw [ht]
    split at h
    · next o1 n1 h2 =>
      cases h
      have := Cursor.take_short h2
      omega
    · next kind c2 h2 =>
      obtain ⟨hk, hr2, ho2⟩ := Cursor.take_ok h2
      have hc1 : c1.rest.length = 4 + c2.rest.length := by rw [hr2]; simp [hk]
      split at h
      · next o1 n1 h3 =>
        cases h
        have := Cursor.take_short h3
        omega
      · next p c3 h3 =>
        obtain ⟨hp, hr3, ho3⟩ := Cursor.take_ok h3
        have hc2 : c2.rest.length = be l + c3.rest.length := by rw [hr3]; simp [hp]
        split at h
        · next o1 n1 h4 =>
          cases h
          have := Cursor.takeInt_short h4
          omega
        · cases h

/-- A record decodes exactly if its four fields are there. -/
theorem decodeRecord_whole (c : Cursor) (h : 12 + be (c.rest.take 4) ≤ c.rest.length) : ∃ i c', decodeRecord c = .ok i c' := by
  cases hd : decodeRecord c with
  | ok i c' => exact ⟨i, c', rfl⟩
  | short o n => have := decodeRecord_short hd; omega

/-! ## Classes -/

/-- The class of a kind and the instruction of a record, together. -/
theorem recordOf_cases (k : Word32) (p : List Byte) (crc : Word32) :
    (classify k = .header ∧ k = Config.kindHeader ∧ recordOf k p crc = .header p crc)
    ∨ (classify k = .intent ∧ k = Config.kindIntent ∧ recordOf k p crc = .intent p crc)
    ∨ (classify k = .physdim ∧ k = Config.kindPhysdim ∧ recordOf k p crc = .physdim p crc)
    ∨ (classify k = .gamma ∧ k = Config.kindGamma ∧ recordOf k p crc = .gamma p crc)
    ∨ (classify k = .term ∧ k = Config.kindTerm ∧ recordOf k p crc = .term p crc)
    ∨ (classify k = .idata ∧ k = Config.kindIdata ∧ recordOf k p crc = .idata p crc)
    ∨ (classify k = .other ∧ k ∉ Config.knownKinds ∧ recordOf k p crc = .other k p crc) := by
  unfold recordOf classify
  repeat' split
  all_goals simp_all [Config.knownKinds]

theorem encode_recordOf (k : Word32) (p : List Byte) (crc : Word32) : encode (recordOf k p crc) = encodeRecord k p crc := by
  rcases recordOf_cases k p crc with ⟨-, h, e⟩ | ⟨-, h, e⟩ | ⟨-, h, e⟩ | ⟨-, h, e⟩ | ⟨-, h, e⟩ | ⟨-, h, e⟩ | ⟨-, h, e⟩ <;>
    rw [e, encode] <;> rw [h]

theorem recordOf_stream (k : Word32) (p : List Byte) (crc : Word32) : (recordOf k p crc).stream = .record := by
  rcases recordOf_cases k p crc with ⟨-, -, e⟩ | ⟨-, -, e⟩ | ⟨-, -, e⟩ | ⟨-, -, e⟩ | ⟨-, -, e⟩ | ⟨-, -, e⟩ | ⟨-, -, e⟩ <;>
    rw [e] <;> rfl

theorem recordOf_wellFormed (k : Word32) (p : List Byte) (crc : Word32) (hp : p.length < 2 ^ 32) :
    (recordOf k p crc).wellFormed = true := by
  rcases recordOf_cases k p crc with ⟨-, -, e⟩ | ⟨-, -, e⟩ | ⟨-, -, e⟩ | ⟨-, -, e⟩ | ⟨-, -, e⟩ | ⟨-, -, e⟩ | ⟨-, h, e⟩ <;>
    rw [e] <;> simp_all [Instr.wellFormed, WellFormed.payload]

/-! ## Rows -/

/-- The instruction of a row, by its tag (R67). -/
theorem rowOf_cases (t : Byte) (body : List Byte) :
    (t = 0x00#8 ∧ rowOf t body = .none body) ∨ (t = 0x01#8 ∧ rowOf t body = .sub body)
    ∨ (t = 0x02#8 ∧ rowOf t body = .up body) ∨ (t = 0x03#8 ∧ rowOf t body = .average body)
    ∨ (t = 0x04#8 ∧ rowOf t body = .paeth body) ∨ (4 < t.toNat ∧ rowOf t body = .illegal t body) := by
  have key : ∀ n, t.toNat = n → n < 256 → t = BitVec.ofNat 8 n := fun n h _ => by
    rw [← h, BitVec.ofNat_toNat, BitVec.setWidth_eq]
  unfold rowOf
  split
  · next h => exact .inl ⟨key 0 h (by omega), rfl⟩
  · next h => exact .inr (.inl ⟨key 1 h (by omega), rfl⟩)
  · next h => exact .inr (.inr (.inl ⟨key 2 h (by omega), rfl⟩))
  · next h => exact .inr (.inr (.inr (.inl ⟨key 3 h (by omega), rfl⟩)))
  · next h => exact .inr (.inr (.inr (.inr (.inl ⟨key 4 h (by omega), rfl⟩))))
  · next h0 h1 h2 h3 h4 =>
    have : 4 < t.toNat := by
      by_contra hc
      interval_cases t.toNat <;> simp_all
    exact .inr (.inr (.inr (.inr (.inr ⟨this, rfl⟩))))

theorem encode_rowOf (t : Byte) (body : List Byte) : encode (rowOf t body) = t :: body := by
  rcases rowOf_cases t body with ⟨h, e⟩ | ⟨h, e⟩ | ⟨h, e⟩ | ⟨h, e⟩ | ⟨h, e⟩ | ⟨h, e⟩ <;> rw [e, encode] <;> rw [h]

/-- What a row that decodes was (R65). -/
theorem decodeRow_instr {bs : List Byte} {i : Instr} (h : decodeRow bs = .instr i) :
    ∃ t body, bs = t :: body ∧ WellFormed.body body = true ∧ i = rowOf t body := by
  cases bs with
  | nil => cases h
  | cons t body =>
    rw [decodeRow] at h
    split at h
    · next hb => cases h; exact ⟨t, body, rfl, hb, rfl⟩
    · cases h

end Sys2Proof
end

