-- ==== Sys2Proof/Laws/State.lean ====
section
/-! SUPPORT. One lemma for each field of State under each named update: what the update makes of the field. All are true by rfl. -/

namespace Sys2Proof.Machine

open Sys2Proof

/-! ## raise -/

@[simp] theorem State.raise_phase (e : ErrorKind) (sub : BitVec 1) (i0 i1 : Nat) (s : State) : (State.raise e sub i0 i1 s).phase = .error := rfl
@[simp] theorem State.raise_off (e : ErrorKind) (sub : BitVec 1) (i0 i1 : Nat) (s : State) : (State.raise e sub i0 i1 s).off = s.off := rfl
@[simp] theorem State.raise_recStart (e : ErrorKind) (sub : BitVec 1) (i0 i1 : Nat) (s : State) : (State.raise e sub i0 i1 s).recStart = s.recStart := rfl
@[simp] theorem State.raise_row (e : ErrorKind) (sub : BitVec 1) (i0 i1 : Nat) (s : State) : (State.raise e sub i0 i1 s).row = s.row := rfl
@[simp] theorem State.raise_flags (e : ErrorKind) (sub : BitVec 1) (i0 i1 : Nat) (s : State) : (State.raise e sub i0 i1 s).flags = s.flags := rfl
@[simp] theorem State.raise_err (e : ErrorKind) (sub : BitVec 1) (i0 i1 : Nat) (s : State) : (State.raise e sub i0 i1 s).err = { code := e.code, sub := sub, info0 := i0, info1 := i1 } := rfl
@[simp] theorem State.raise_inLen (e : ErrorKind) (sub : BitVec 1) (i0 i1 : Nat) (s : State) : (State.raise e sub i0 i1 s).inLen = s.inLen := rfl
@[simp] theorem State.raise_geom (e : ErrorKind) (sub : BitVec 1) (i0 i1 : Nat) (s : State) : (State.raise e sub i0 i1 s).geom = s.geom := rfl
@[simp] theorem State.raise_stride (e : ErrorKind) (sub : BitVec 1) (i0 i1 : Nat) (s : State) : (State.raise e sub i0 i1 s).stride = s.stride := rfl
@[simp] theorem State.raise_nrows (e : ErrorKind) (sub : BitVec 1) (i0 i1 : Nat) (s : State) : (State.raise e sub i0 i1 s).nrows = s.nrows := rfl
@[simp] theorem State.raise_cur (e : ErrorKind) (sub : BitVec 1) (i0 i1 : Nat) (s : State) : (State.raise e sub i0 i1 s).cur = s.cur := rfl
@[simp] theorem State.raise_prev (e : ErrorKind) (sub : BitVec 1) (i0 i1 : Nat) (s : State) : (State.raise e sub i0 i1 s).prev = s.prev := rfl
@[simp] theorem State.raise_latch (e : ErrorKind) (sub : BitVec 1) (i0 i1 : Nat) (s : State) : (State.raise e sub i0 i1 s).latch = s.latch := rfl
@[simp] theorem State.raise_inMem (e : ErrorKind) (sub : BitVec 1) (i0 i1 : Nat) (s : State) : (State.raise e sub i0 i1 s).inMem = s.inMem := rfl
@[simp] theorem State.raise_recLog (e : ErrorKind) (sub : BitVec 1) (i0 i1 : Nat) (s : State) : (State.raise e sub i0 i1 s).recLog = s.recLog := rfl
@[simp] theorem State.raise_zbuf (e : ErrorKind) (sub : BitVec 1) (i0 i1 : Nat) (s : State) : (State.raise e sub i0 i1 s).zbuf = s.zbuf := rfl
@[simp] theorem State.raise_fbuf (e : ErrorKind) (sub : BitVec 1) (i0 i1 : Nat) (s : State) : (State.raise e sub i0 i1 s).fbuf = s.fbuf := rfl
@[simp] theorem State.raise_grid (e : ErrorKind) (sub : BitVec 1) (i0 i1 : Nat) (s : State) : (State.raise e sub i0 i1 s).grid = [] := rfl
@[simp] theorem State.raise_tagLog (e : ErrorKind) (sub : BitVec 1) (i0 i1 : Nat) (s : State) : (State.raise e sub i0 i1 s).tagLog = [] := rfl
@[simp] theorem State.raise_host (e : ErrorKind) (sub : BitVec 1) (i0 i1 : Nat) (s : State) : (State.raise e sub i0 i1 s).host = s.host := rfl

/-! ## startRun -/

@[simp] theorem State.startRun_phase (s : State) : (s.startRun).phase = .parse := rfl
@[simp] theorem State.startRun_off (s : State) : (s.startRun).off = 0 := rfl
@[simp] theorem State.startRun_recStart (s : State) : (s.startRun).recStart = 0 := rfl
@[simp] theorem State.startRun_row (s : State) : (s.startRun).row = 0 := rfl
@[simp] theorem State.startRun_flags (s : State) : (s.startRun).flags = Flags.zero := rfl
@[simp] theorem State.startRun_err (s : State) : (s.startRun).err = ErrRegs.zero := rfl
@[simp] theorem State.startRun_inLen (s : State) : (s.startRun).inLen = s.inLen := rfl
@[simp] theorem State.startRun_geom (s : State) : (s.startRun).geom = Geometry.zero := rfl
@[simp] theorem State.startRun_stride (s : State) : (s.startRun).stride = 0 := rfl
@[simp] theorem State.startRun_nrows (s : State) : (s.startRun).nrows = 0 := rfl
@[simp] theorem State.startRun_cur (s : State) : (s.startRun).cur = [] := rfl
@[simp] theorem State.startRun_prev (s : State) : (s.startRun).prev = [] := rfl
@[simp] theorem State.startRun_latch (s : State) : (s.startRun).latch = s.latch := rfl
@[simp] theorem State.startRun_inMem (s : State) : (s.startRun).inMem = s.inMem := rfl
@[simp] theorem State.startRun_recLog (s : State) : (s.startRun).recLog = [] := rfl
@[simp] theorem State.startRun_zbuf (s : State) : (s.startRun).zbuf = [] := rfl
@[simp] theorem State.startRun_fbuf (s : State) : (s.startRun).fbuf = [] := rfl
@[simp] theorem State.startRun_grid (s : State) : (s.startRun).grid = [] := rfl
@[simp] theorem State.startRun_tagLog (s : State) : (s.startRun).tagLog = [] := rfl
@[simp] theorem State.startRun_host (s : State) : (s.startRun).host = s.host := rfl

/-! ## doReset -/

@[simp] theorem State.doReset_phase (s : State) : (s.doReset).phase = .idle := rfl
@[simp] theorem State.doReset_off (s : State) : (s.doReset).off = 0 := rfl
@[simp] theorem State.doReset_recStart (s : State) : (s.doReset).recStart = 0 := rfl
@[simp] theorem State.doReset_row (s : State) : (s.doReset).row = 0 := rfl
@[simp] theorem State.doReset_flags (s : State) : (s.doReset).flags = Flags.zero := rfl
@[simp] theorem State.doReset_err (s : State) : (s.doReset).err = ErrRegs.zero := rfl
@[simp] theorem State.doReset_inLen (s : State) : (s.doReset).inLen = 0 := rfl
@[simp] theorem State.doReset_geom (s : State) : (s.doReset).geom = Geometry.zero := rfl
@[simp] theorem State.doReset_stride (s : State) : (s.doReset).stride = 0 := rfl
@[simp] theorem State.doReset_nrows (s : State) : (s.doReset).nrows = 0 := rfl
@[simp] theorem State.doReset_cur (s : State) : (s.doReset).cur = [] := rfl
@[simp] theorem State.doReset_prev (s : State) : (s.doReset).prev = [] := rfl
@[simp] theorem State.doReset_latch (s : State) : (s.doReset).latch = Latches.zero := rfl
@[simp] theorem State.doReset_inMem (s : State) : (s.doReset).inMem = [] := rfl
@[simp] theorem State.doReset_recLog (s : State) : (s.doReset).recLog = [] := rfl
@[simp] theorem State.doReset_zbuf (s : State) : (s.doReset).zbuf = [] := rfl
@[simp] theorem State.doReset_fbuf (s : State) : (s.doReset).fbuf = [] := rfl
@[simp] theorem State.doReset_grid (s : State) : (s.doReset).grid = [] := rfl
@[simp] theorem State.doReset_tagLog (s : State) : (s.doReset).tagLog = [] := rfl
@[simp] theorem State.doReset_host (s : State) : (s.doReset).host = s.host := rfl

/-! ## passRecord -/

@[simp] theorem State.passRecord_phase (p : List Byte) (s : State) : (s.passRecord p).phase = s.phase := rfl
@[simp] theorem State.passRecord_off (p : List Byte) (s : State) : (s.passRecord p).off = s.off + 12 + p.length := rfl
@[simp] theorem State.passRecord_recStart (p : List Byte) (s : State) : (s.passRecord p).recStart = s.off := rfl
@[simp] theorem State.passRecord_row (p : List Byte) (s : State) : (s.passRecord p).row = s.row := rfl
@[simp] theorem State.passRecord_flags (p : List Byte) (s : State) : (s.passRecord p).flags = s.flags := rfl
@[simp] theorem State.passRecord_err (p : List Byte) (s : State) : (s.passRecord p).err = s.err := rfl
@[simp] theorem State.passRecord_inLen (p : List Byte) (s : State) : (s.passRecord p).inLen = s.inLen := rfl
@[simp] theorem State.passRecord_geom (p : List Byte) (s : State) : (s.passRecord p).geom = s.geom := rfl
@[simp] theorem State.passRecord_stride (p : List Byte) (s : State) : (s.passRecord p).stride = s.stride := rfl
@[simp] theorem State.passRecord_nrows (p : List Byte) (s : State) : (s.passRecord p).nrows = s.nrows := rfl
@[simp] theorem State.passRecord_cur (p : List Byte) (s : State) : (s.passRecord p).cur = s.cur := rfl
@[simp] theorem State.passRecord_prev (p : List Byte) (s : State) : (s.passRecord p).prev = s.prev := rfl
@[simp] theorem State.passRecord_latch (p : List Byte) (s : State) : (s.passRecord p).latch = s.latch := rfl
@[simp] theorem State.passRecord_inMem (p : List Byte) (s : State) : (s.passRecord p).inMem = s.inMem := rfl
@[simp] theorem State.passRecord_recLog (p : List Byte) (s : State) : (s.passRecord p).recLog = s.recLog := rfl
@[simp] theorem State.passRecord_zbuf (p : List Byte) (s : State) : (s.passRecord p).zbuf = s.zbuf := rfl
@[simp] theorem State.passRecord_fbuf (p : List Byte) (s : State) : (s.passRecord p).fbuf = s.fbuf := rfl
@[simp] theorem State.passRecord_grid (p : List Byte) (s : State) : (s.passRecord p).grid = s.grid := rfl
@[simp] theorem State.passRecord_tagLog (p : List Byte) (s : State) : (s.passRecord p).tagLog = s.tagLog := rfl
@[simp] theorem State.passRecord_host (p : List Byte) (s : State) : (s.passRecord p).host = s.host := rfl

/-! ## failRead -/

@[simp] theorem State.failRead_phase (o n : Nat) (s : State) : (s.failRead o n).phase = .error := rfl
@[simp] theorem State.failRead_off (o n : Nat) (s : State) : (s.failRead o n).off = o := rfl
@[simp] theorem State.failRead_recStart (o n : Nat) (s : State) : (s.failRead o n).recStart = s.off := rfl
@[simp] theorem State.failRead_row (o n : Nat) (s : State) : (s.failRead o n).row = s.row := rfl
@[simp] theorem State.failRead_flags (o n : Nat) (s : State) : (s.failRead o n).flags = s.flags := rfl
@[simp] theorem State.failRead_err (o n : Nat) (s : State) : (s.failRead o n).err = { code := 1#3, sub := 0#1, info0 := o, info1 := n } := rfl
@[simp] theorem State.failRead_inLen (o n : Nat) (s : State) : (s.failRead o n).inLen = s.inLen := rfl
@[simp] theorem State.failRead_geom (o n : Nat) (s : State) : (s.failRead o n).geom = s.geom := rfl
@[simp] theorem State.failRead_stride (o n : Nat) (s : State) : (s.failRead o n).stride = s.stride := rfl
@[simp] theorem State.failRead_nrows (o n : Nat) (s : State) : (s.failRead o n).nrows = s.nrows := rfl
@[simp] theorem State.failRead_cur (o n : Nat) (s : State) : (s.failRead o n).cur = s.cur := rfl
@[simp] theorem State.failRead_prev (o n : Nat) (s : State) : (s.failRead o n).prev = s.prev := rfl
@[simp] theorem State.failRead_latch (o n : Nat) (s : State) : (s.failRead o n).latch = s.latch := rfl
@[simp] theorem State.failRead_inMem (o n : Nat) (s : State) : (s.failRead o n).inMem = s.inMem := rfl
@[simp] theorem State.failRead_recLog (o n : Nat) (s : State) : (s.failRead o n).recLog = s.recLog := rfl
@[simp] theorem State.failRead_zbuf (o n : Nat) (s : State) : (s.failRead o n).zbuf = s.zbuf := rfl
@[simp] theorem State.failRead_fbuf (o n : Nat) (s : State) : (s.failRead o n).fbuf = s.fbuf := rfl
@[simp] theorem State.failRead_grid (o n : Nat) (s : State) : (s.failRead o n).grid = [] := rfl
@[simp] theorem State.failRead_tagLog (o n : Nat) (s : State) : (s.failRead o n).tagLog = [] := rfl
@[simp] theorem State.failRead_host (o n : Nat) (s : State) : (s.failRead o n).host = s.host := rfl

/-! ## logRecord -/

@[simp] theorem State.logRecord_phase (d : Descriptor) (s : State) : (State.logRecord d s).phase = s.phase := rfl
@[simp] theorem State.logRecord_off (d : Descriptor) (s : State) : (State.logRecord d s).off = s.off := rfl
@[simp] theorem State.logRecord_recStart (d : Descriptor) (s : State) : (State.logRecord d s).recStart = s.recStart := rfl
@[simp] theorem State.logRecord_row (d : Descriptor) (s : State) : (State.logRecord d s).row = s.row := rfl
@[simp] theorem State.logRecord_flags (d : Descriptor) (s : State) : (State.logRecord d s).flags = s.flags := rfl
@[simp] theorem State.logRecord_err (d : Descriptor) (s : State) : (State.logRecord d s).err = s.err := rfl
@[simp] theorem State.logRecord_inLen (d : Descriptor) (s : State) : (State.logRecord d s).inLen = s.inLen := rfl
@[simp] theorem State.logRecord_geom (d : Descriptor) (s : State) : (State.logRecord d s).geom = s.geom := rfl
@[simp] theorem State.logRecord_stride (d : Descriptor) (s : State) : (State.logRecord d s).stride = s.stride := rfl
@[simp] theorem State.logRecord_nrows (d : Descriptor) (s : State) : (State.logRecord d s).nrows = s.nrows := rfl
@[simp] theorem State.logRecord_cur (d : Descriptor) (s : State) : (State.logRecord d s).cur = s.cur := rfl
@[simp] theorem State.logRecord_prev (d : Descriptor) (s : State) : (State.logRecord d s).prev = s.prev := rfl
@[simp] theorem State.logRecord_latch (d : Descriptor) (s : State) : (State.logRecord d s).latch = s.latch := rfl
@[simp] theorem State.logRecord_inMem (d : Descriptor) (s : State) : (State.logRecord d s).inMem = s.inMem := rfl
@[simp] theorem State.logRecord_recLog (d : Descriptor) (s : State) : (State.logRecord d s).recLog = s.recLog ++ [d] := rfl
@[simp] theorem State.logRecord_zbuf (d : Descriptor) (s : State) : (State.logRecord d s).zbuf = s.zbuf := rfl
@[simp] theorem State.logRecord_fbuf (d : Descriptor) (s : State) : (State.logRecord d s).fbuf = s.fbuf := rfl
@[simp] theorem State.logRecord_grid (d : Descriptor) (s : State) : (State.logRecord d s).grid = s.grid := rfl
@[simp] theorem State.logRecord_tagLog (d : Descriptor) (s : State) : (State.logRecord d s).tagLog = s.tagLog := rfl
@[simp] theorem State.logRecord_host (d : Descriptor) (s : State) : (State.logRecord d s).host = s.host := rfl

/-! ## appendZ -/

@[simp] theorem State.appendZ_phase (p : List Byte) (s : State) : (s.appendZ p).phase = s.phase := rfl
@[simp] theorem State.appendZ_off (p : List Byte) (s : State) : (s.appendZ p).off = s.off := rfl
@[simp] theorem State.appendZ_recStart (p : List Byte) (s : State) : (s.appendZ p).recStart = s.recStart := rfl
@[simp] theorem State.appendZ_row (p : List Byte) (s : State) : (s.appendZ p).row = s.row := rfl
@[simp] theorem State.appendZ_flags (p : List Byte) (s : State) : (s.appendZ p).flags = s.flags := rfl
@[simp] theorem State.appendZ_err (p : List Byte) (s : State) : (s.appendZ p).err = s.err := rfl
@[simp] theorem State.appendZ_inLen (p : List Byte) (s : State) : (s.appendZ p).inLen = s.inLen := rfl
@[simp] theorem State.appendZ_geom (p : List Byte) (s : State) : (s.appendZ p).geom = s.geom := rfl
@[simp] theorem State.appendZ_stride (p : List Byte) (s : State) : (s.appendZ p).stride = s.stride := rfl
@[simp] theorem State.appendZ_nrows (p : List Byte) (s : State) : (s.appendZ p).nrows = s.nrows := rfl
@[simp] theorem State.appendZ_cur (p : List Byte) (s : State) : (s.appendZ p).cur = s.cur := rfl
@[simp] theorem State.appendZ_prev (p : List Byte) (s : State) : (s.appendZ p).prev = s.prev := rfl
@[simp] theorem State.appendZ_latch (p : List Byte) (s : State) : (s.appendZ p).latch = s.latch := rfl
@[simp] theorem State.appendZ_inMem (p : List Byte) (s : State) : (s.appendZ p).inMem = s.inMem := rfl
@[simp] theorem State.appendZ_recLog (p : List Byte) (s : State) : (s.appendZ p).recLog = s.recLog := rfl
@[simp] theorem State.appendZ_zbuf (p : List Byte) (s : State) : (s.appendZ p).zbuf = s.zbuf ++ p := rfl
@[simp] theorem State.appendZ_fbuf (p : List Byte) (s : State) : (s.appendZ p).fbuf = s.fbuf := rfl
@[simp] theorem State.appendZ_grid (p : List Byte) (s : State) : (s.appendZ p).grid = s.grid := rfl
@[simp] theorem State.appendZ_tagLog (p : List Byte) (s : State) : (s.appendZ p).tagLog = s.tagLog := rfl
@[simp] theorem State.appendZ_host (p : List Byte) (s : State) : (s.appendZ p).host = s.host := rfl

/-! ## hoist -/

@[simp] theorem State.hoist_phase (g : Geometry) (s : State) : (s.hoist g).phase = s.phase := rfl
@[simp] theorem State.hoist_off (g : Geometry) (s : State) : (s.hoist g).off = s.off := rfl
@[simp] theorem State.hoist_recStart (g : Geometry) (s : State) : (s.hoist g).recStart = s.recStart := rfl
@[simp] theorem State.hoist_row (g : Geometry) (s : State) : (s.hoist g).row = s.row := rfl
@[simp] theorem State.hoist_flags (g : Geometry) (s : State) : (s.hoist g).flags = { s.flags with hdrSeen := true } := rfl
@[simp] theorem State.hoist_err (g : Geometry) (s : State) : (s.hoist g).err = s.err := rfl
@[simp] theorem State.hoist_inLen (g : Geometry) (s : State) : (s.hoist g).inLen = s.inLen := rfl
@[simp] theorem State.hoist_geom (g : Geometry) (s : State) : (s.hoist g).geom = if s.flags.hdrSeen then s.geom else g := rfl
@[simp] theorem State.hoist_stride (g : Geometry) (s : State) : (s.hoist g).stride = s.stride := rfl
@[simp] theorem State.hoist_nrows (g : Geometry) (s : State) : (s.hoist g).nrows = s.nrows := rfl
@[simp] theorem State.hoist_cur (g : Geometry) (s : State) : (s.hoist g).cur = s.cur := rfl
@[simp] theorem State.hoist_prev (g : Geometry) (s : State) : (s.hoist g).prev = s.prev := rfl
@[simp] theorem State.hoist_latch (g : Geometry) (s : State) : (s.hoist g).latch = s.latch := rfl
@[simp] theorem State.hoist_inMem (g : Geometry) (s : State) : (s.hoist g).inMem = s.inMem := rfl
@[simp] theorem State.hoist_recLog (g : Geometry) (s : State) : (s.hoist g).recLog = s.recLog := rfl
@[simp] theorem State.hoist_zbuf (g : Geometry) (s : State) : (s.hoist g).zbuf = s.zbuf := rfl
@[simp] theorem State.hoist_fbuf (g : Geometry) (s : State) : (s.hoist g).fbuf = s.fbuf := rfl
@[simp] theorem State.hoist_grid (g : Geometry) (s : State) : (s.hoist g).grid = s.grid := rfl
@[simp] theorem State.hoist_tagLog (g : Geometry) (s : State) : (s.hoist g).tagLog = s.tagLog := rfl
@[simp] theorem State.hoist_host (g : Geometry) (s : State) : (s.hoist g).host = s.host := rfl

/-! ## noteData -/

@[simp] theorem State.noteData_phase (s : State) : (s.noteData).phase = s.phase := rfl
@[simp] theorem State.noteData_off (s : State) : (s.noteData).off = s.off := rfl
@[simp] theorem State.noteData_recStart (s : State) : (s.noteData).recStart = s.recStart := rfl
@[simp] theorem State.noteData_row (s : State) : (s.noteData).row = s.row := rfl
@[simp] theorem State.noteData_flags (s : State) : (s.noteData).flags = { s.flags with dataBeforeHdr := s.flags.dataBeforeHdr || !s.flags.hdrSeen } := rfl
@[simp] theorem State.noteData_err (s : State) : (s.noteData).err = s.err := rfl
@[simp] theorem State.noteData_inLen (s : State) : (s.noteData).inLen = s.inLen := rfl
@[simp] theorem State.noteData_geom (s : State) : (s.noteData).geom = s.geom := rfl
@[simp] theorem State.noteData_stride (s : State) : (s.noteData).stride = s.stride := rfl
@[simp] theorem State.noteData_nrows (s : State) : (s.noteData).nrows = s.nrows := rfl
@[simp] theorem State.noteData_cur (s : State) : (s.noteData).cur = s.cur := rfl
@[simp] theorem State.noteData_prev (s : State) : (s.noteData).prev = s.prev := rfl
@[simp] theorem State.noteData_latch (s : State) : (s.noteData).latch = s.latch := rfl
@[simp] theorem State.noteData_inMem (s : State) : (s.noteData).inMem = s.inMem := rfl
@[simp] theorem State.noteData_recLog (s : State) : (s.noteData).recLog = s.recLog := rfl
@[simp] theorem State.noteData_zbuf (s : State) : (s.noteData).zbuf = s.zbuf := rfl
@[simp] theorem State.noteData_fbuf (s : State) : (s.noteData).fbuf = s.fbuf := rfl
@[simp] theorem State.noteData_grid (s : State) : (s.noteData).grid = s.grid := rfl
@[simp] theorem State.noteData_tagLog (s : State) : (s.noteData).tagLog = s.tagLog := rfl
@[simp] theorem State.noteData_host (s : State) : (s.noteData).host = s.host := rfl

/-! ## noteEnd -/

@[simp] theorem State.noteEnd_phase (s : State) : (s.noteEnd).phase = .geom := rfl
@[simp] theorem State.noteEnd_off (s : State) : (s.noteEnd).off = s.off := rfl
@[simp] theorem State.noteEnd_recStart (s : State) : (s.noteEnd).recStart = s.recStart := rfl
@[simp] theorem State.noteEnd_row (s : State) : (s.noteEnd).row = s.row := rfl
@[simp] theorem State.noteEnd_flags (s : State) : (s.noteEnd).flags = { s.flags with endSeen := true } := rfl
@[simp] theorem State.noteEnd_err (s : State) : (s.noteEnd).err = s.err := rfl
@[simp] theorem State.noteEnd_inLen (s : State) : (s.noteEnd).inLen = s.inLen := rfl
@[simp] theorem State.noteEnd_geom (s : State) : (s.noteEnd).geom = s.geom := rfl
@[simp] theorem State.noteEnd_stride (s : State) : (s.noteEnd).stride = s.stride := rfl
@[simp] theorem State.noteEnd_nrows (s : State) : (s.noteEnd).nrows = s.nrows := rfl
@[simp] theorem State.noteEnd_cur (s : State) : (s.noteEnd).cur = s.cur := rfl
@[simp] theorem State.noteEnd_prev (s : State) : (s.noteEnd).prev = s.prev := rfl
@[simp] theorem State.noteEnd_latch (s : State) : (s.noteEnd).latch = s.latch := rfl
@[simp] theorem State.noteEnd_inMem (s : State) : (s.noteEnd).inMem = s.inMem := rfl
@[simp] theorem State.noteEnd_recLog (s : State) : (s.noteEnd).recLog = s.recLog := rfl
@[simp] theorem State.noteEnd_zbuf (s : State) : (s.noteEnd).zbuf = s.zbuf := rfl
@[simp] theorem State.noteEnd_fbuf (s : State) : (s.noteEnd).fbuf = s.fbuf := rfl
@[simp] theorem State.noteEnd_grid (s : State) : (s.noteEnd).grid = s.grid := rfl
@[simp] theorem State.noteEnd_tagLog (s : State) : (s.noteEnd).tagLog = s.tagLog := rfl
@[simp] theorem State.noteEnd_host (s : State) : (s.noteEnd).host = s.host := rfl

/-! ## finishRow -/

@[simp] theorem State.finishRow_phase (t : Byte) (r : RowRegs) (s : State) : (s.finishRow t r).phase = s.phase := rfl
@[simp] theorem State.finishRow_off (t : Byte) (r : RowRegs) (s : State) : (s.finishRow t r).off = s.off := rfl
@[simp] theorem State.finishRow_recStart (t : Byte) (r : RowRegs) (s : State) : (s.finishRow t r).recStart = s.recStart := rfl
@[simp] theorem State.finishRow_row (t : Byte) (r : RowRegs) (s : State) : (s.finishRow t r).row = s.row + 1 := rfl
@[simp] theorem State.finishRow_flags (t : Byte) (r : RowRegs) (s : State) : (s.finishRow t r).flags = s.flags := rfl
@[simp] theorem State.finishRow_err (t : Byte) (r : RowRegs) (s : State) : (s.finishRow t r).err = s.err := rfl
@[simp] theorem State.finishRow_inLen (t : Byte) (r : RowRegs) (s : State) : (s.finishRow t r).inLen = s.inLen := rfl
@[simp] theorem State.finishRow_geom (t : Byte) (r : RowRegs) (s : State) : (s.finishRow t r).geom = s.geom := rfl
@[simp] theorem State.finishRow_stride (t : Byte) (r : RowRegs) (s : State) : (s.finishRow t r).stride = s.stride := rfl
@[simp] theorem State.finishRow_nrows (t : Byte) (r : RowRegs) (s : State) : (s.finishRow t r).nrows = s.nrows := rfl
@[simp] theorem State.finishRow_cur (t : Byte) (r : RowRegs) (s : State) : (s.finishRow t r).cur = r.cur := rfl
@[simp] theorem State.finishRow_prev (t : Byte) (r : RowRegs) (s : State) : (s.finishRow t r).prev = r.cur := rfl
@[simp] theorem State.finishRow_latch (t : Byte) (r : RowRegs) (s : State) : (s.finishRow t r).latch = r.latch := rfl
@[simp] theorem State.finishRow_inMem (t : Byte) (r : RowRegs) (s : State) : (s.finishRow t r).inMem = s.inMem := rfl
@[simp] theorem State.finishRow_recLog (t : Byte) (r : RowRegs) (s : State) : (s.finishRow t r).recLog = s.recLog := rfl
@[simp] theorem State.finishRow_zbuf (t : Byte) (r : RowRegs) (s : State) : (s.finishRow t r).zbuf = s.zbuf := rfl
@[simp] theorem State.finishRow_fbuf (t : Byte) (r : RowRegs) (s : State) : (s.finishRow t r).fbuf = s.fbuf := rfl
@[simp] theorem State.finishRow_grid (t : Byte) (r : RowRegs) (s : State) : (s.finishRow t r).grid = s.grid ++ [r.cur.tail] := rfl
@[simp] theorem State.finishRow_tagLog (t : Byte) (r : RowRegs) (s : State) : (s.finishRow t r).tagLog = s.tagLog ++ [t] := rfl
@[simp] theorem State.finishRow_host (t : Byte) (r : RowRegs) (s : State) : (s.finishRow t r).host = s.host := rfl

end Sys2Proof.Machine
end

