-- ==== Sys2Proof/Laws/Memory.lean ====
section
/-! SUPPORT. What the operations over IN do: a byte written is read back, the others keep their value, and the canonical form is
kept. -/

namespace Sys2Proof.Machine

open Sys2Proof

theorem Memory.read?_write_same (m : Memory) (a : Nat) (b : Byte) : Memory.read? (Memory.write m a b) a = some b := by
  induction m with
  | nil => simp [Memory.write, Memory.read?]
  | cons e r ih =>
    obtain ⟨x, c⟩ := e
    rw [Memory.write]
    split
    · simp [Memory.read?]
    · split
      · simp [Memory.read?]
      · next h => simp [Memory.read?, Ne.symm h, ih]

theorem Memory.read?_write_other (m : Memory) (a a' : Nat) (b : Byte) (h : a' ≠ a) :
    Memory.read? (Memory.write m a b) a' = Memory.read? m a' := by
  induction m with
  | nil => simp [Memory.write, Memory.read?, Ne.symm h]
  | cons e r ih =>
    obtain ⟨x, c⟩ := e
    rw [Memory.write]
    split
    · simp [Memory.read?, Ne.symm h]
    · split
      · next hx => subst hx; simp [Memory.read?, Ne.symm h]
      · simp [Memory.read?, ih]

theorem Memory.above_write (m : Memory) (a x : Nat) (b : Byte) (h : Memory.above x m = true) (hx : x < a) :
    Memory.above x (Memory.write m a b) = true := by
  induction m generalizing x with
  | nil => simp [Memory.write, Memory.above, hx]
  | cons e r ih =>
    obtain ⟨y, c⟩ := e
    simp only [Memory.above, Bool.and_eq_true, decide_eq_true_eq] at h
    rw [Memory.write]
    split
    · next hy => simp [Memory.above, hx, hy, h.2]
    · split
      · next hy => subst hy; simp [Memory.above, hx, h.2]
      · next h1 h2 => simp [Memory.above, h.1, ih y h.2 (by omega)]

/-- A write keeps the canonical form. -/
theorem Memory.wf_write (m : Memory) (a : Nat) (b : Byte) (h : Memory.wf m = true) : Memory.wf (Memory.write m a b) = true := by
  cases m with
  | nil => simp [Memory.write, Memory.wf, Memory.above]
  | cons e r =>
    obtain ⟨x, c⟩ := e
    rw [Memory.write]
    split
    · next hx => simp only [Memory.wf] at h; simp [Memory.wf, Memory.above, hx, h]
    · split
      · next hx => subst hx; simpa [Memory.wf] using h
      · next h1 h2 => exact Memory.above_write r a x b h (by omega)

/-- Writing bytes keeps the canonical form. -/
theorem Memory.wf_writeBytes (m : Memory) (a : Nat) (bs : List Byte) (h : Memory.wf m = true) :
    Memory.wf (Memory.writeBytes m a bs) = true := by
  induction bs generalizing m a with
  | nil => exact h
  | cons b bs ih => exact ih _ _ (Memory.wf_write m a b h)

theorem Memory.read?_writeBytes_other (m : Memory) (a : Nat) (bs : List Byte) (a' : Nat)
    (h : a' < a ∨ a + bs.length ≤ a') : Memory.read? (Memory.writeBytes m a bs) a' = Memory.read? m a' := by
  induction bs generalizing m a with
  | nil => rfl
  | cons b bs ih =>
    simp only [List.length_cons] at h
    rw [Memory.writeBytes, ih _ _ (by omega), Memory.read?_write_other _ _ _ _ (by omega)]

theorem Memory.read?_writeBytes_same (m : Memory) (a : Nat) (bs : List Byte) (k : Nat) (h : k < bs.length) :
    Memory.read? (Memory.writeBytes m a bs) (a + k) = some (bs.getD k 0#8) := by
  induction bs generalizing m a k with
  | nil => simp at h
  | cons b bs ih =>
    cases k with
    | zero =>
      rw [Memory.writeBytes, Memory.read?_writeBytes_other _ _ _ _ (by omega)]
      simp [Memory.read?_write_same]
    | succ k =>
      simp only [List.length_cons] at h
      have := ih (Memory.write m a b) (a + 1) k (by omega)
      rw [Memory.writeBytes, show a + (k + 1) = a + 1 + k by omega, this]
      simp

/-- The memory after reset has the canonical form. -/
theorem reset_memory_wf : Memory.wf State.reset.inMem = true := rfl

/-! ## Slices of IN -/

@[simp] theorem State.memRead_length (s : State) (a n : Nat) : (s.memRead a n).length = n := by simp [State.memRead]

theorem State.memRead_take (s : State) (a n k : Nat) (h : k ≤ n) : (s.memRead a n).take k = s.memRead a k := by
  apply List.ext_getElem
  · simp; omega
  · intro i h1 h2; simp [State.memRead]

theorem State.memRead_drop (s : State) (a n k : Nat) : (s.memRead a n).drop k = s.memRead (a + k) (n - k) := by
  apply List.ext_getElem
  · simp
  · intro i h1 h2; simp [State.memRead, Nat.add_assoc]

/-- A slice of IN depends on IN alone. -/
theorem State.memRead_congr (s t : State) (h : t.inMem = s.inMem) (a n : Nat) : t.memRead a n = s.memRead a n := by
  simp [State.memRead, State.inByte, h]

end Sys2Proof.Machine
end

