-- ==== Sys2Proof/Laws/PerInstr.lean ====
section
/-! SUPPORT. One statement about every instruction as syntax: how many bytes its encoding has
(spec/30_encoding.md R60, R61, R65, R73). -/

namespace Sys2Proof

/-- The number of bytes an instruction takes: a record 12 and its payload (R60), a row the tag and its body (R65), START one value
of CTRL (R73). -/
def Instr.size : Instr → Nat
  | .header p _ | .intent p _ | .physdim p _ | .gamma p _ | .term p _ | .idata p _ | .other _ p _ => 12 + p.length
  | .none b | .sub b | .up b | .average b | .paeth b | .illegal _ b => 1 + b.length
  | .start => 1

/-- The encoding has exactly the instruction's size, a record's at least 12 bytes (R60), and no encoding is empty. -/
def Laws.EncodeSize.Statement (i : Instr) : Prop :=
  (encode i).length = i.size ∧ (i.stream = .record → 12 ≤ (encode i).length) ∧ encode i ≠ []

theorem Laws.EncodeSize.of_record {i : Instr} {k : Word32} {p : List Byte} {crc : Word32} (he : encode i = encodeRecord k p crc)
    (hs : i.size = 12 + p.length) : Laws.EncodeSize.Statement i := by
  refine ⟨by rw [he, hs, encodeRecord_length], fun _ => by rw [he, encodeRecord_length]; omega, ?_⟩
  intro h
  have := congrArg List.length (he.symm.trans h)
  rw [encodeRecord_length] at this
  simp at this

theorem Laws.EncodeSize.of_row {i : Instr} {t : Byte} {b : List Byte} (he : encode i = t :: b) (hs : i.size = 1 + b.length)
    (hr : i.stream ≠ .record) : Laws.EncodeSize.Statement i :=
  ⟨by rw [he, hs, List.length_cons, Nat.add_comm], fun h => absurd h hr, by rw [he]; exact List.cons_ne_nil _ _⟩

theorem Laws.EncodeSize.header (p : List Byte) (crc : Word32) : Laws.EncodeSize.Statement (.header p crc) :=
  Laws.EncodeSize.of_record rfl rfl

theorem Laws.EncodeSize.intent (p : List Byte) (crc : Word32) : Laws.EncodeSize.Statement (.intent p crc) :=
  Laws.EncodeSize.of_record rfl rfl

theorem Laws.EncodeSize.physdim (p : List Byte) (crc : Word32) : Laws.EncodeSize.Statement (.physdim p crc) :=
  Laws.EncodeSize.of_record rfl rfl

theorem Laws.EncodeSize.gamma (p : List Byte) (crc : Word32) : Laws.EncodeSize.Statement (.gamma p crc) :=
  Laws.EncodeSize.of_record rfl rfl

theorem Laws.EncodeSize.term (p : List Byte) (crc : Word32) : Laws.EncodeSize.Statement (.term p crc) :=
  Laws.EncodeSize.of_record rfl rfl

theorem Laws.EncodeSize.idata (p : List Byte) (crc : Word32) : Laws.EncodeSize.Statement (.idata p crc) :=
  Laws.EncodeSize.of_record rfl rfl

theorem Laws.EncodeSize.other (k : Word32) (p : List Byte) (crc : Word32) : Laws.EncodeSize.Statement (.other k p crc) :=
  Laws.EncodeSize.of_record rfl rfl

theorem Laws.EncodeSize.none (b : List Byte) : Laws.EncodeSize.Statement (.none b) :=
  Laws.EncodeSize.of_row rfl rfl nofun

theorem Laws.EncodeSize.sub (b : List Byte) : Laws.EncodeSize.Statement (.sub b) :=
  Laws.EncodeSize.of_row rfl rfl nofun

theorem Laws.EncodeSize.up (b : List Byte) : Laws.EncodeSize.Statement (.up b) :=
  Laws.EncodeSize.of_row rfl rfl nofun

theorem Laws.EncodeSize.average (b : List Byte) : Laws.EncodeSize.Statement (.average b) :=
  Laws.EncodeSize.of_row rfl rfl nofun

theorem Laws.EncodeSize.paeth (b : List Byte) : Laws.EncodeSize.Statement (.paeth b) :=
  Laws.EncodeSize.of_row rfl rfl nofun

theorem Laws.EncodeSize.illegal (t : Byte) (b : List Byte) : Laws.EncodeSize.Statement (.illegal t b) :=
  Laws.EncodeSize.of_row rfl rfl nofun

theorem Laws.EncodeSize.start : Laws.EncodeSize.Statement .start := ⟨rfl, nofun, nofun⟩

end Sys2Proof
end

