-- ==== Sys2Proof/Laws/Records.lean ====
section
/-! SUPPORT. What a record's meaning can do: one lemma for the shared PARSE step, and one that says every record is that step with
the effect of its class. -/

namespace Sys2Proof.Machine

open Sys2Proof

/-- The descriptor of a record at OFF whose payload has its schema. -/
def descriptorAt (s : State) (kc : KClass) (k : Word32) (p : List Byte) (crc : Word32) : Descriptor :=
  descriptorOf s.off kc k p crc (takeFields (schema kc) p)

/-- The effect of a class beyond logging (R62, last column). -/
def classEffect (kc : KClass) (p : List Byte) (d : Descriptor) (s : State) : State :=
  match kc with
  | .header => s.hoist (geometryOf d)
  | .term => s.noteEnd
  | .idata => s.noteData.appendZ p
  | .other | .intent | .physdim | .gamma => s

/-- The PARSE step over a payload that has its schema: the descriptor is logged, then the effect follows. -/
theorem parseStep_whole {kc : KClass} {k : Word32} {p : List Byte} {crc : Word32} {e : Descriptor → State → State} {s : State}
    (hs : s.phase = .parse) (hp : schemaLen kc ≤ p.length) :
    parseStep kc k p crc e s
      = .next (e (descriptorAt s kc k p crc) (State.logRecord (descriptorAt s kc k p crc) (s.passRecord p))) := by
  have h : decodeFields kc p = some (takeFields (schema kc) p) := by
    rw [decodeFields, if_neg (by omega)]
  rw [parseStep, if_pos hs, h]
  rfl

/-- The PARSE step over a payload shorter than its schema: MalformedRecord, the record passed, nothing committed. -/
theorem parseStep_short {kc : KClass} {k : Word32} {p : List Byte} {crc : Word32} {e : Descriptor → State → State} {s : State}
    (hs : s.phase = .parse) (hp : p.length < schemaLen kc) :
    parseStep kc k p crc e s = .next (State.raise .malformedRecord 0#1 s.off p.length (s.passRecord p)) := by
  have h : decodeFields kc p = none := by rw [decodeFields, if_pos (by omega)]
  rw [parseStep, if_pos hs, h]

/-- Everything a PARSE step that answers a next state did. -/
theorem parseStep_next {kc : KClass} {k : Word32} {p : List Byte} {crc : Word32} {e : Descriptor → State → State} {s t : State}
    (h : parseStep kc k p crc e s = .next t) :
    s.phase = .parse ∧
      ((p.length < schemaLen kc ∧ t = State.raise .malformedRecord 0#1 s.off p.length (s.passRecord p))
      ∨ (schemaLen kc ≤ p.length
          ∧ t = e (descriptorAt s kc k p crc) (State.logRecord (descriptorAt s kc k p crc) (s.passRecord p)))) := by
  by_cases hs : s.phase = .parse
  · refine ⟨hs, ?_⟩
    by_cases hp : p.length < schemaLen kc
    · rw [parseStep_short hs hp] at h; cases h; exact .inl ⟨hp, rfl⟩
    · rw [parseStep_whole hs (by omega)] at h; cases h; exact .inr ⟨by omega, rfl⟩
  · rw [parseStep, if_neg hs] at h; cases h

/-- A record's meaning is the shared PARSE step with the effect of its class. -/
theorem exec_recordOf (k : Word32) (p : List Byte) (crc : Word32) (s : State) :
    exec (recordOf k p crc) s = parseStep (classify k) k p crc (classEffect (classify k) p) s := by
  rcases recordOf_cases k p crc with ⟨c, h, e⟩ | ⟨c, h, e⟩ | ⟨c, h, e⟩ | ⟨c, h, e⟩ | ⟨c, h, e⟩ | ⟨c, h, e⟩ | ⟨c, h, e⟩ <;>
    rw [e, c] <;> first | rfl | (rw [h]; rfl)

/-- Every instruction of the record stream that has an encoding is the record of its kind, payload and checksum. -/
theorem record_of_stream {i : Instr} (h : i.stream = .record) (hw : i.wellFormed = true) :
    ∃ k p crc, i = recordOf k p crc ∧ p.length < 2 ^ 32 := by
  cases i with
  | header p c => exact ⟨Config.kindHeader, p, c, rfl, by simpa [Instr.wellFormed, WellFormed.payload] using hw⟩
  | intent p c => exact ⟨Config.kindIntent, p, c, rfl, by simpa [Instr.wellFormed, WellFormed.payload] using hw⟩
  | physdim p c => exact ⟨Config.kindPhysdim, p, c, rfl, by simpa [Instr.wellFormed, WellFormed.payload] using hw⟩
  | gamma p c => exact ⟨Config.kindGamma, p, c, rfl, by simpa [Instr.wellFormed, WellFormed.payload] using hw⟩
  | term p c => exact ⟨Config.kindTerm, p, c, rfl, by simpa [Instr.wellFormed, WellFormed.payload] using hw⟩
  | idata p c => exact ⟨Config.kindIdata, p, c, rfl, by simpa [Instr.wellFormed, WellFormed.payload] using hw⟩
  | other k p c =>
    simp only [Instr.wellFormed, WellFormed.payload, Bool.and_eq_true, decide_eq_true_eq] at hw
    refine ⟨k, p, c, ?_, hw.1⟩
    rcases recordOf_cases k p c with ⟨-, h, -⟩ | ⟨-, h, -⟩ | ⟨-, h, -⟩ | ⟨-, h, -⟩ | ⟨-, h, -⟩ | ⟨-, h, -⟩ | ⟨-, h, e⟩
    all_goals first | exact e.symm | exact absurd (h ▸ by simp [Config.knownKinds]) hw.2
  | none | sub | up | average | paeth | illegal | start => cases h

/-- A one-byte field is its byte. -/
theorem takeFields_one (zs : List Nat) (a : Byte) (p : List Byte) :
    takeFields (1 :: zs) (a :: p) = a.setWidth 32 :: takeFields zs p := by
  simp [takeFields, beWord_one]

/-- A four-byte field is its bytes, the first the most significant. -/
theorem takeFields_four (zs : List Nat) (a b c d : Byte) (p : List Byte) :
    takeFields (4 :: zs) (a :: b :: c :: d :: p) = (a ++ b ++ c ++ d) :: takeFields zs p := by
  simp [takeFields, beWord_four]

@[simp] theorem takeFields_length (zs : List Nat) (p : List Byte) : (takeFields zs p).length = zs.length := by
  induction zs generalizing p with
  | nil => rfl
  | cons z zs ih => simp [takeFields, ih]

/-- Four payload bytes read as one field are the word of the claims. -/
theorem beWord_take4 (p : List Byte) (o : Nat) (h : o + 4 ≤ p.length) : beWord ((p.drop o).take 4) = word4 p o := by
  have h4 : ((p.drop o).take 4).length = 4 := by simp; omega
  obtain ⟨a, b, c, d, e⟩ : ∃ a b c d, (p.drop o).take 4 = [a, b, c, d] := by
    match hl : (p.drop o).take 4, h4 with
    | [a, b, c, d], _ => exact ⟨a, b, c, d, rfl⟩
  have hb : ∀ k, k < 4 → byteAt p (o + k) = byteAt [a, b, c, d] k := by
    intro k hk
    simp only [byteAt, ← e, List.getD_eq_getElem?_getD, List.getElem?_take, if_pos hk, List.getElem?_drop]
  rw [e, beWord_four, word4, hb 1 (by omega), hb 2 (by omega), hb 3 (by omega), show byteAt p o = a from hb 0 (by omega)]
  rfl

/-- One payload byte read as a field is the byte, zero-extended. -/
theorem beWord_take1 (p : List Byte) (o : Nat) (h : o + 1 ≤ p.length) : beWord ((p.drop o).take 1) = word1 p o := by
  rw [List.take_one_drop_eq_of_lt_length (by omega), beWord_one, word1, byteAt]
  simp [List.getElem?_eq_getElem (show o < p.length by omega)]

/-- The decoded fields, at their payload offsets (R63, R92). -/
theorem descriptorAt_fields (s : State) (kc : KClass) (k : Word32) (p : List Byte) (crc : Word32) (h : schemaLen kc ≤ p.length) :
    let d := descriptorAt s kc k p crc
    [d.f0, d.f1, d.f2, d.f3, d.f4, d.f5, d.f6] = fieldsOf kc p := by
  have h4 : ∀ o, o + 4 ≤ p.length → beWord ((p.drop o).take 4) = word4 p o := beWord_take4 p
  have h1 : ∀ o, o + 1 ≤ p.length → beWord ((p.drop o).take 1) = word1 p o := beWord_take1 p
  have z4 := h4 0
  have z1 := h1 0
  rw [List.drop_zero] at z4 z1
  cases kc with
  | header =>
    simp only [schemaLen, schema, List.sum_cons, List.sum_nil] at h
    simp only [descriptorAt, descriptorOf, schema, takeFields, fieldsOf, List.drop_drop, z4 (by omega), h4 4 (by omega),
      h1 8 (by omega), h1 9 (by omega), h1 10 (by omega), h1 11 (by omega), h1 12 (by omega)]
    rfl
  | physdim =>
    simp only [schemaLen, schema, List.sum_cons, List.sum_nil] at h
    simp only [descriptorAt, descriptorOf, schema, takeFields, fieldsOf, List.drop_drop, z4 (by omega), h4 4 (by omega),
      h1 8 (by omega)]
    rfl
  | gamma =>
    simp only [schemaLen, schema, List.sum_cons, List.sum_nil] at h
    simp only [descriptorAt, descriptorOf, schema, takeFields, fieldsOf, z4 (by omega)]
    rfl
  | intent =>
    simp only [schemaLen, schema, List.sum_cons, List.sum_nil] at h
    simp only [descriptorAt, descriptorOf, schema, takeFields, fieldsOf, z1 (by omega)]
    rfl
  | term | idata | other => rfl

end Sys2Proof.Machine
end

