-- ==== Sys2Proof/Laws/Rows.lean ====
section
/-! SUPPORT. What a row's meaning can do: the left-to-right loop reconstructs the row (R141, R142, R154), said once for all filters. -/

namespace Sys2Proof.Machine

open Sys2Proof

theorem toNat_addMod256 (v : Byte) (p : Nat) : (addMod256 v p).toNat = (v.toNat + p) % 256 := by simp [addMod256]

theorem byteAt_set (l : List Byte) (x y : Nat) (b : Byte) :
    byteAt (l.set x b) y = if x = y ∧ y < l.length then b else byteAt l y := by
  simp only [byteAt, List.getD_eq_getElem?_getD, List.getElem?_set]
  by_cases h : x = y
  · subst h
    by_cases h2 : x < l.length
    · simp [h2]
    · simp [h2]
  · simp [h]

theorem byteAt_cons_succ (b : Byte) (l : List Byte) (k : Nat) : byteAt (b :: l) (k + 1) = byteAt l k := by simp [byteAt]

theorem byteAt_tail (l : List Byte) (k : Nat) : byteAt l.tail k = byteAt l (k + 1) := by
  cases l <;> simp [byteAt]

/-- The left neighbour by position x of a row with its tag is the left sample of the body. -/
theorem leftOf_succ (l : List Byte) (k : Nat) : leftOf l (k + 1) = leftSample l.tail k := by
  have hb : Config.bpp = 3 := rfl
  simp only [leftOf, leftSample]
  by_cases h : k < 3
  · rw [if_pos h, if_neg (by omega)]
  · rw [if_neg h, if_pos (by omega), byteAt_tail, show k - 3 + 1 = k + 1 - Config.bpp by omega]

/-- The loop over the samples x to x+n-1: the others keep their value, and each of these is its filtered value plus the predictor
of the reconstructed neighbours. -/
theorem samples_spec (pred : Byte → Byte → Byte → Nat) (prev : List Byte) (x n : Nat) (r : RowRegs) :
    (samples pred prev x n r).cur.length = r.cur.length
    ∧ (∀ y, y < x ∨ x + n ≤ y → byteAt (samples pred prev x n r).cur y = byteAt r.cur y)
    ∧ (∀ y, x ≤ y → y < x + n → y < r.cur.length →
        byteAt (samples pred prev x n r).cur y =
          addMod256 (byteAt r.cur y) (pred (leftOf (samples pred prev x n r).cur y) (byteAt prev y) (leftOf prev y))) := by
  induction n generalizing x r with
  | zero => exact ⟨rfl, fun _ _ => rfl, fun y h1 h2 => by omega⟩
  | succ n ih =>
    obtain ⟨hl, ho, hi⟩ := ih (x + 1) (sample pred prev r x)
    have hset : ∀ y, byteAt (sample pred prev r x).cur y
        = if x = y ∧ y < r.cur.length then
            addMod256 (byteAt r.cur x) (pred (leftOf r.cur x) (byteAt prev x) (leftOf prev x)) else byteAt r.cur y :=
      fun y => byteAt_set _ _ _ _
    have hlen : (sample pred prev r x).cur.length = r.cur.length := by simp [sample]
    rw [samples]
    refine ⟨by rw [hl, hlen], ?_, ?_⟩
    · intro y hy
      rw [ho y (by omega), hset, if_neg (by omega)]
    · intro y h1 h2 h3
      by_cases hxy : x = y
      · subst hxy
        have hleft : leftOf (samples pred prev (x + 1) n (sample pred prev r x)).cur x = leftOf r.cur x := by
          have hb : Config.bpp = 3 := rfl
          simp only [leftOf]
          split
          · rw [ho _ (by omega), hset, if_neg (by omega)]
          · rfl
        rw [ho x (by omega), hset, if_pos ⟨rfl, h3⟩, hleft]
      · rw [hi y (by omega) (by omega) (by omega), hset, if_neg (by omega)]

/-- A row is reconstructed: CUR ends as the tag and a row whose every sample is as R141 says. -/
theorem samples_row (pred : Byte → Byte → Byte → Nat) (prev : List Byte) (tag : Byte) (body : List Byte) (l : Latches) :
    ∃ out l', samples pred prev 1 body.length { latch := l, cur := tag :: body } = { latch := l', cur := tag :: out }
      ∧ out.length = body.length
      ∧ ∀ k, k < body.length →
          (byteAt out k).toNat =
            ((byteAt body k).toNat
              + pred (leftSample out k) (byteAt prev.tail k) (leftSample prev.tail k)) % 256 := by
  obtain ⟨hl, ho, hi⟩ := samples_spec pred prev 1 body.length { latch := l, cur := tag :: body }
  generalize samples pred prev 1 body.length { latch := l, cur := tag :: body } = r at hl ho hi
  obtain ⟨l', cur⟩ := r
  cases cur with
  | nil => simp at hl
  | cons t out =>
    have ht : t = tag := by simpa [byteAt] using ho 0 (by omega)
    subst ht
    refine ⟨out, l', rfl, by simpa using hl, ?_⟩
    intro k hk
    have := hi (k + 1) (by omega) (by omega) (by simpa using hk)
    simp only [leftOf_succ, List.tail_cons, ← byteAt_tail] at this
    rw [this, toNat_addMod256]

/-- One ROW step with a legal tag: the reconstructed row joins GRID and becomes PREV. -/
theorem rowStep_ready {tag : Byte} {pred : Byte → Byte → Byte → Nat} {body : List Byte} {s : State} (h : rowReady body s = true) :
    ∃ out l', rowStep tag pred body s = .next (s.finishRow tag { latch := l', cur := tag :: out })
      ∧ out.length = body.length
      ∧ ∀ k, k < body.length →
          (byteAt out k).toNat =
            ((byteAt body k).toNat
              + pred (leftSample out k) (byteAt s.prev.tail k) (leftSample s.prev.tail k)) % 256 := by
  obtain ⟨out, l', he, hr⟩ := samples_row pred s.prev tag body s.latch
  exact ⟨out, l', by rw [rowStep, if_pos h, he], hr⟩

theorem rowReady_iff (body : List Byte) (s : State) : rowReady body s = true ↔
    s.phase = .defilter ∧ s.row < s.nrows ∧ body.length + 1 = s.stride ∧ s.prev.length = s.stride := by simp [rowReady]

/-- Everything a row's meaning that answers a next state did: a legal tag appends the reconstructed row, an illegal one enters
ERROR. -/
theorem exec_rowOf_next {t : Byte} {body : List Byte} {s u : State} (h : exec (rowOf t body) s = .next u) :
    rowReady body s = true
    ∧ ((t.toNat ≤ 4 ∧ ∃ out l', u = s.finishRow t { latch := l', cur := t :: out }
          ∧ Reconstructs t.toNat s.prev.tail body out)
      ∨ (4 < t.toNat ∧ u = State.raise .malformedRecord 1#1 s.row t.toNat { s with cur := t :: body })) := by
  have legal : ∀ (tag : Byte) (pred : Byte → Byte → Byte → Nat), tag.toNat ≤ 4 → pred = predict tag.toNat →
      rowStep tag pred body s = .next u →
      rowReady body s = true ∧ (tag.toNat ≤ 4 ∧ ∃ out l', u = s.finishRow tag { latch := l', cur := tag :: out }
          ∧ Reconstructs tag.toNat s.prev.tail body out) := by
    intro tag pred ht hp hn
    by_cases hr : rowReady body s = true
    · obtain ⟨out, l', he, hrec⟩ := rowStep_ready (tag := tag) (pred := pred) hr
      rw [he] at hn; cases hn
      subst hp
      exact ⟨hr, ht, out, l', rfl, hrec⟩
    · rw [rowStep, if_neg hr] at hn; cases hn
  rcases rowOf_cases t body with ⟨e, g⟩ | ⟨e, g⟩ | ⟨e, g⟩ | ⟨e, g⟩ | ⟨e, g⟩ | ⟨e, g⟩ <;> rw [g] at h
  · subst e; have := legal 0x00#8 predNone (by decide) rfl h; exact ⟨this.1, .inl this.2⟩
  · subst e; have := legal 0x01#8 predSub (by decide) rfl h; exact ⟨this.1, .inl this.2⟩
  · subst e; have := legal 0x02#8 predUp (by decide) rfl h; exact ⟨this.1, .inl this.2⟩
  · subst e; have := legal 0x03#8 predAverage (by decide) rfl h; exact ⟨this.1, .inl this.2⟩
  · subst e; have := legal 0x04#8 predPaeth (by decide) rfl h; exact ⟨this.1, .inl this.2⟩
  · by_cases hr : rowReady body s = true
    · simp only [exec, execIllegal, if_pos hr] at h; cases h
      exact ⟨hr, .inr ⟨e, rfl⟩⟩
    · simp only [exec, execIllegal, if_neg hr] at h; cases h

/-- A row's meaning answers a next state whenever its ROW step is enabled. -/
theorem exec_rowOf_ready {t : Byte} {body : List Byte} {s : State} (h : rowReady body s = true) :
    ∃ u, exec (rowOf t body) s = .next u := by
  rcases rowOf_cases t body with ⟨-, g⟩ | ⟨-, g⟩ | ⟨-, g⟩ | ⟨-, g⟩ | ⟨-, g⟩ | ⟨-, g⟩ <;> rw [g]
  · exact ⟨_, if_pos h⟩
  · exact ⟨_, if_pos h⟩
  · exact ⟨_, if_pos h⟩
  · exact ⟨_, if_pos h⟩
  · exact ⟨_, if_pos h⟩
  · exact ⟨_, if_pos h⟩

end Sys2Proof.Machine
end

