-- ==== Sys2Proof/Laws/Steps.lean ====
section
/-! SUPPORT. What a step can do, said once: the cases of the block's own step and of an action from outside. -/

namespace Sys2Proof.Machine

open Sys2Proof

theorem step_of_nil {s : State} (h : s.host = []) : step s = blockStep s := by rw [step, stepAll, h]

theorem step_of_cons {s : State} {a : HostAct} {rest : List HostAct} (h : s.host = a :: rest) :
    step s = hostStep a { s with host := rest } := by rw [step, stepAll, h]

@[simp] theorem State.cursor_rest_length (s : State) : s.cursor.rest.length = s.inLen - s.off := by simp [State.cursor]

@[simp] theorem State.cursor_off (s : State) : s.cursor.off = s.off := rfl

/-- The descriptor of a record that stands at OFF is that record, byte for byte (R68, R90). -/
theorem record_at {s : State} {k : Word32} {p : List Byte} {crc : Word32} {r : List Byte} (hp : p.length < 2 ^ 32)
    (hl : schemaLen (classify k) ≤ p.length) (h : s.cursor.rest = encodeRecord k p crc ++ r) :
    RecordOk s (descriptorAt s (classify k) k p crc) := by
  have hlen := congrArg List.length h
  simp only [State.cursor_rest_length, List.length_append, encodeRecord_length] at hlen
  have hslice : ∀ a n, a + n ≤ 12 + p.length → s.memRead (s.off + a) n = ((encodeRecord k p crc).drop a).take n := by
    intro a n hn
    have h2 := congrArg (fun l => (l.drop a).take n) h
    simp only [State.cursor, State.memRead_drop] at h2
    rw [State.memRead_take _ _ _ _ (by omega)] at h2
    rw [h2, List.drop_append_of_le_length (by rw [encodeRecord_length]; omega),
      List.take_append_of_le_length (by rw [List.length_drop, encodeRecord_length]; omega)]
  have hL : (BitVec.ofNat 32 p.length).toNat = p.length := by rw [BitVec.toNat_ofNat, Nat.mod_eq_of_lt hp]
  have hpay : s.payloadOf (descriptorAt s (classify k) k p crc) = p := by
    show s.memRead (s.off + 8) (BitVec.ofNat 32 p.length).toNat = p
    rw [hL, hslice 8 _ (by omega)]; simp [encodeRecord, wordBytes]
  refine ⟨?_, ?_, ?_, ?_⟩
  · show BitVec.ofNat 32 p.length = beWord (s.memRead (s.off + 0) 4)
    rw [hslice 0 4 (by omega)]
    conv_lhs => rw [← beWord_wordBytes (BitVec.ofNat 32 p.length)]
    simp [encodeRecord, wordBytes]
  · show k = beWord (s.memRead (s.off + 4) 4)
    rw [hslice 4 4 (by omega)]
    conv_lhs => rw [← beWord_wordBytes k]
    simp [encodeRecord, wordBytes]
  · show crc = beWord (s.memRead (s.off + 8 + (BitVec.ofNat 32 p.length).toNat) 4)
    rw [hL, Nat.add_assoc, hslice (8 + p.length) 4 (by omega)]
    conv_lhs => rw [← beWord_wordBytes crc]
    have : ((encodeRecord k p crc).drop (8 + p.length)).take 4 = wordBytes crc := by
      simp [encodeRecord, wordBytes, Nat.add_comm 8]
    rw [this]
  · rw [hpay]; exact descriptorAt_fields s _ k p crc hl

/-- The cases of a PARSE step (R90, R111): a read of IN fails, the payload is too short, or the record is committed. -/
theorem stepParse_next {s t : State} (h : stepParse s = .next t) :
    (∃ o n, decodeRecord s.cursor = .short o n ∧ t = s.failRead o n)
    ∨ ∃ k p crc c, decodeRecord s.cursor = .ok (recordOf k p crc) c ∧ p.length < 2 ^ 32
        ∧ s.cursor.rest = encodeRecord k p crc ++ c.rest
        ∧ ((p.length < schemaLen (classify k) ∧ t = State.raise .malformedRecord 0#1 s.off p.length (s.passRecord p))
          ∨ (schemaLen (classify k) ≤ p.length
              ∧ t = classEffect (classify k) p (descriptorAt s (classify k) k p crc)
                  (State.logRecord (descriptorAt s (classify k) k p crc) (s.passRecord p)))) := by
  rw [stepParse] at h
  split at h
  · next i c hd =>
    obtain ⟨k, p, crc, rfl, hp, hr, -⟩ := decodeRecord_ok hd
    rw [exec_recordOf] at h
    exact .inr ⟨k, p, crc, c, hd, hp, hr, (parseStep_next h).2⟩
  · next o n hd => cases h; exact .inl ⟨o, n, hd, rfl⟩

/-- The cases of a GEOM step (R119). -/
theorem stepGeom_next {s t : State} (h : stepGeom s = .next t) :
    ((s.flags.hdrSeen = false ∨ s.flags.dataBeforeHdr = true)
      ∧ t = State.raise .missingHeader 0#1 (bit s.flags.hdrSeen) (bit s.flags.dataBeforeHdr) s)
    ∨ (s.flags.hdrSeen = true ∧ s.flags.dataBeforeHdr = false
      ∧ t = { s with stride := s.geom.width.toNat * 3 + 1, phase := .inflate }) := by
  rw [stepGeom] at h
  split at h
  · next hc => cases h; exact .inl ⟨hc, rfl⟩
  · next hc => cases h; refine .inr ⟨by simpa using fun e => hc (.inl e), by simpa using fun e => hc (.inr e), rfl⟩

/-- The cases of a SLICE step (R140). -/
theorem stepSlice_next {s t : State} (h : stepSlice s = .next t) :
    s.stride ≠ 0 ∧
      ((s.fbuf.length % s.stride ≠ 0
        ∧ t = State.raise .truncatedImageData 0#1 s.fbuf.length (s.fbuf.length % s.stride) s)
      ∨ (s.fbuf.length % s.stride = 0
        ∧ t = { s with
            nrows := s.fbuf.length / s.stride, row := 0, prev := List.replicate s.stride 0#8, phase := .defilter })) := by
  rw [stepSlice] at h
  split at h
  · cases h
  · next h0 =>
    split at h
    · next hm => cases h; exact ⟨h0, .inl ⟨hm, rfl⟩⟩
    · next hm => cases h; exact ⟨h0, .inr ⟨by simpa using hm, rfl⟩⟩

/-- The cases of a step in DEFILTER (R141, R151, R153): a reconstructed row, an illegal tag, or the finish. -/
theorem stepDefilter_next {s t : State} (h : stepDefilter s = .next t) :
    (∃ tag body, s.rowBytes = tag :: body ∧ rowReady body s = true
      ∧ ((tag.toNat ≤ 4 ∧ ∃ out l, t = s.finishRow tag { latch := l, cur := tag :: out }
            ∧ Reconstructs tag.toNat s.prev.tail body out)
        ∨ (4 < tag.toNat ∧ t = State.raise .malformedRecord 1#1 s.row tag.toNat { s with cur := tag :: body })))
    ∨ (s.row = s.nrows ∧ t = { s with phase := .done }) := by
  rw [stepDefilter] at h
  split at h
  · rw [stepRow] at h
    split at h
    · split at h
      · next i hd =>
        obtain ⟨tag, body, hb, -, rfl⟩ := decodeRow_instr hd
        exact .inl ⟨tag, body, hb, exec_rowOf_next h⟩
      · cases h
    · cases h
  · split at h
    · next hr => cases h; exact .inr ⟨hr, rfl⟩
    · cases h

/-- The cases of the block's own step (R30), by PHASE. -/
theorem blockStep_next {s t : State} (h : blockStep s = .next t) :
    (s.busy = false ∧ t = s)
    ∨ (s.phase = .parse ∧ stepParse s = .next t)
    ∨ (s.phase = .geom ∧ stepGeom s = .next t)
    ∨ (s.phase = .inflate ∧ t = inflateWith (Config.decompress s.zbuf) s)
    ∨ (s.phase = .slice ∧ stepSlice s = .next t)
    ∨ (s.phase = .defilter ∧ stepDefilter s = .next t) := by
  unfold blockStep at h
  split at h <;> next hp => first
    | (cases h; exact .inl ⟨by rw [State.busy, hp]; rfl, rfl⟩)
    | exact .inr (.inl ⟨hp, h⟩)
    | exact .inr (.inr (.inl ⟨hp, h⟩))
    | (cases h; exact .inr (.inr (.inr (.inl ⟨hp, rfl⟩))))
    | exact .inr (.inr (.inr (.inr (.inl ⟨hp, h⟩))))
    | exact .inr (.inr (.inr (.inr (.inr ⟨hp, h⟩))))

/-- The cases of an action from outside that is not the block's turn (R17, R18, R32, R200). -/
theorem hostStep_next {a : HostAct} {s t : State} (ha : a ≠ .pass) (h : hostStep a s = .next t) :
    t = s
    ∨ (∃ o bytes, a = .writeIn o bytes ∧ s.busy = false ∧ t = { s with inMem := Memory.writeBytes s.inMem o bytes })
    ∨ (∃ v, a = .writeReg 6 v ∧ s.busy = false ∧ t = { s with inLen := v })
    ∨ (∃ v, a = .writeReg 0 v ∧ v % 2 = 1 ∧ s.busy = false ∧ t = s.startRun)
    ∨ (a = .reset ∧ t = s.doReset) := by
  cases a with
  | pass => exact absurd rfl ha
  | writeIn o bytes =>
    simp only [hostStep, writeIn] at h
    split at h
    · cases h
    · next hb => cases h; exact .inr (.inl ⟨o, bytes, rfl, by simpa using hb, rfl⟩)
  | writeReg n v =>
    simp only [hostStep, writeReg] at h
    split at h
    · next hn =>
      subst hn
      rw [writeCtrl, decodeCommand] at h
      by_cases hv : v % 2 = 1
      · rw [if_pos hv] at h
        simp only [exec, execStart] at h
        split at h
        · cases h; exact .inl rfl
        · next hb => cases h; exact .inr (.inr (.inr (.inl ⟨v, rfl, hv, by simpa using hb, rfl⟩)))
      · rw [if_neg hv] at h; cases h; exact .inl rfl
    · split at h
      · next hn =>
        subst hn
        split at h
        · cases h
        · next hb => cases h; exact .inr (.inr (.inl ⟨v, rfl, by simpa using hb, rfl⟩))
      · split at h
        · cases h; exact .inl rfl
        · cases h
  | read r =>
    simp only [hostStep] at h
    split at h
    · cases h; exact .inl rfl
    · cases h
  | reset => cases h; exact .inr (.inr (.inr (.inr ⟨rfl, rfl⟩)))

/-- A property of states that does not look at the host's actions, and that the block's step, the host's writes, START and reset
keep, is kept by every step. -/
theorem step_induction {P : State → Prop} {s t : State}
    (host : ∀ (u : State) l, P u → P { u with host := l })
    (block : ∀ u v, P u → blockStep u = .next v → P v)
    (writeIn : ∀ (u : State) o bytes, P u → u.busy = false → P { u with inMem := Memory.writeBytes u.inMem o bytes })
    (writeLen : ∀ (u : State) n, P u → u.busy = false → P { u with inLen := n })
    (start : ∀ u : State, P u → u.busy = false → P u.startRun)
    (reset : ∀ u : State, P u → P u.doReset)
    (hs : P s) (h : step s = .next t) : P t := by
  cases hh : s.host with
  | nil => rw [step_of_nil hh] at h; exact block s t hs h
  | cons a rest =>
    rw [step_of_cons hh] at h
    have hs' := host s rest hs
    by_cases ha : a = .pass
    · subst ha; exact block _ t hs' h
    · rcases hostStep_next ha h with rfl | ⟨o, bytes, -, hb, rfl⟩ | ⟨v, -, hb, rfl⟩ | ⟨v, -, -, hb, rfl⟩ | ⟨-, rfl⟩
      · exact hs'
      · exact writeIn _ o bytes hs' hb
      · exact writeLen _ v hs' hb
      · exact start _ hs' hb
      · exact reset _ hs'

end Sys2Proof.Machine
end

