-- ==== Sys2Proof/Tests/Slice0.lean ====
section
/-! SUPPORT. The model's own tests: well-formedness, one decoding per constructor, one small step per instruction with the
result that
spec/95_test_vectors.md gives, and a witness for the hypotheses of every statement. -/

namespace Sys2Proof

open Sys2Proof.Machine

/-! ## Helpers -/

/-- A block that parses these bytes of IN. -/
def Tests.parsing (bytes : List Byte) : State :=
  { State.reset with phase := .parse, inMem := Memory.writeBytes [] 0 bytes, inLen := bytes.length }

/-- A block in DEFILTER at row 0 of one row of WIDTH 3, below this row (vectors V3.1 to V3.5r). -/
def Tests.rowing (above : List Byte) : State :=
  { State.reset with
    phase := .defilter, flags := { hdrSeen := true, dataBeforeHdr := false, endSeen := true }
    geom := { Geometry.zero with width := 3#32 }, stride := 10, nrows := 1, prev := 0#8 :: above }

/-- A block in DEFILTER at row 1 of two rows of WIDTH 1; row 0 is done (spec/95_test_vectors.md section 3.3). -/
def Tests.secondRow (tag : Byte) : State :=
  { State.reset with
    phase := .defilter, flags := { hdrSeen := true, dataBeforeHdr := false, endSeen := true }
    geom := { Geometry.zero with width := 1#32 }, stride := 4, nrows := 2, row := 1
    fbuf := [0#8, 250#8, 251#8, 252#8, tag, 7#8, 8#8, 9#8], prev := [0#8, 250#8, 251#8, 252#8]
    grid := [[250#8, 251#8, 252#8]], tagLog := [0#8] }

/-- A block in SLICE with this STRIDE and an FBUF of this many bytes. -/
def Tests.slicing (stride len : Nat) : State :=
  { State.reset with phase := .slice, stride := stride, fbuf := List.replicate len 0#8 }

/-- The same block with this action of the host next. -/
def Tests.acting (a : HostAct) (s : State) : State := { s with host := [a] }

/-- The next state of an outcome. -/
def Tests.nextOf (o : Host.Outcome State Fault Refusal) : Option State :=
  match o with
  | .next s => some s
  | .fault _ => Option.none
  | .refused _ => Option.none

/-- The filtered body of vectors V3.1 to V3.5r. -/
def Tests.body : List Byte := [1#8, 2#8, 3#8, 10#8, 20#8, 30#8, 250#8, 128#8, 255#8]

/-- The row above of their case B. -/
def Tests.caseB : List Byte := [100#8, 150#8, 200#8, 250#8, 0#8, 255#8, 30#8, 60#8, 90#8]

/-- The 25 bytes of vector V2.1. -/
def Tests.headerBytes : List Byte :=
  [0x00#8, 0x00#8, 0x00#8, 0x0D#8, 0x49#8, 0x48#8, 0x44#8, 0x52#8, 0x00#8, 0x00#8, 0x00#8, 0x02#8,
    0x00#8, 0x00#8, 0x00#8, 0x02#8, 0x08#8, 0x02#8, 0x00#8, 0x00#8, 0x00#8, 0xFD#8, 0xD4#8, 0x9A#8, 0x73#8]

/-- The record of vector V2.5. -/
def Tests.termBytes : List Byte := [0x00#8, 0x00#8, 0x00#8, 0x00#8, 0x49#8, 0x45#8, 0x4E#8, 0x44#8, 0xAE#8, 0x42#8, 0x60#8,
      0x82#8]

/-! ## Well-formedness: a term for each check, and one that the check refuses -/

theorem test_wf_payload (p : List Byte) (h : p.length = 2 ^ 32) (crc : Word32) : (Instr.header p crc).wellFormed = false
    ∧ (Instr.intent p crc).wellFormed = false ∧ (Instr.physdim p crc).wellFormed = false
      ∧ (Instr.gamma p crc).wellFormed = false
    ∧ (Instr.term p crc).wellFormed = false ∧ (Instr.idata p crc).wellFormed = false := by
  simp [Instr.wellFormed, WellFormed.payload, h]

theorem test_wf_other_payload (p : List Byte) (h : p.length = 2 ^ 32) (crc : Word32) : (Instr.other 0#32 p crc).wellFormed =
      false := by
  simp [Instr.wellFormed, WellFormed.payload, h]

theorem test_wf_other_kind : (Instr.other 0x49484452#32 [] 0#32).wellFormed = false
    ∧ (Instr.other 0x73524742#32 [] 0#32).wellFormed = false ∧ (Instr.other 0x70485973#32 [] 0#32).wellFormed = false
    ∧ (Instr.other 0x67414D41#32 [] 0#32).wellFormed = false ∧ (Instr.other 0x49454E44#32 [] 0#32).wellFormed = false
    ∧ (Instr.other 0x49444154#32 [] 0#32).wellFormed = false ∧ (Instr.other 0x49484472#32 [] 0#32).wellFormed = true :=
      by decide

theorem test_wf_body : (Instr.none [0#8]).wellFormed = false ∧ (Instr.sub [0#8, 0#8]).wellFormed = false
    ∧ (Instr.up [0#8]).wellFormed = false ∧ (Instr.average [0#8]).wellFormed = false ∧ (Instr.paeth [0#8]).wellFormed = false
    ∧ (Instr.illegal 5#8 [0#8]).wellFormed = false ∧ (Instr.none []).wellFormed = true
    ∧ (Instr.paeth [0#8, 0#8, 0#8]).wellFormed = true := by decide

theorem test_wf_body_long (b : List Byte) (h : b.length = 3 * 2 ^ 32) : (Instr.none b).wellFormed = false := by
  simp [Instr.wellFormed, WellFormed.body, h]

theorem test_wf_illegal_tag : (Instr.illegal 4#8 []).wellFormed = false ∧ (Instr.illegal 5#8 []).wellFormed = true := by decide

/-! ## Decoding: words written out from the spec's encodings (spec/95_test_vectors.md V2.1 to V2.9, spec/30_encoding.md R67,
R73) -/

/-- V2.1. -/
theorem test_decode_header : decode .record Tests.headerBytes
    = .instr (.header [0x00#8, 0x00#8, 0x00#8, 0x02#8, 0x00#8, 0x00#8, 0x00#8, 0x02#8, 0x08#8, 0x02#8, 0x00#8, 0x00#8,
      0x00#8] 0xFDD49A73#32) := by decide

/-- V2.2. -/
theorem test_decode_intent : decode .record [0x00#8, 0x00#8, 0x00#8, 0x01#8, 0x73#8, 0x52#8, 0x47#8, 0x42#8, 0x00#8,
      0xAE#8, 0xCE#8, 0x1C#8, 0xE9#8]
    = .instr (.intent [0x00#8] 0xAECE1CE9#32) := by decide

/-- V2.3. -/
theorem test_decode_physdim : decode .record [0x00#8, 0x00#8, 0x00#8, 0x09#8, 0x70#8, 0x48#8, 0x59#8, 0x73#8, 0x00#8,
      0x00#8, 0x0B#8, 0x13#8, 0x00#8, 0x00#8, 0x0B#8, 0x13#8, 0x01#8, 0x00#8, 0x9A#8, 0x9C#8, 0x18#8]
    = .instr (.physdim [0x00#8, 0x00#8, 0x0B#8, 0x13#8, 0x00#8, 0x00#8, 0x0B#8, 0x13#8, 0x01#8] 0x009A9C18#32) := by decide

/-- V2.4. -/
theorem test_decode_gamma : decode .record [0x00#8, 0x00#8, 0x00#8, 0x04#8, 0x67#8, 0x41#8, 0x4D#8, 0x41#8, 0x00#8, 0x00#8,
      0xB1#8, 0x8F#8, 0x0B#8, 0xFC#8, 0x61#8, 0x05#8]
    = .instr (.gamma [0x00#8, 0x00#8, 0xB1#8, 0x8F#8] 0x0BFC6105#32) := by decide

/-- V2.5. -/
theorem test_decode_term : decode .record Tests.termBytes
    = .instr (.term [] 0xAE426082#32) := by decide

/-- V2.6. -/
theorem test_decode_idata : decode .record [0x00#8, 0x00#8, 0x00#8, 0x04#8, 0x49#8, 0x44#8, 0x41#8, 0x54#8, 0x00#8, 0x01#8,
      0x02#8, 0x03#8, 0x40#8, 0xDE#8, 0xBE#8, 0x08#8]
    = .instr (.idata [0x00#8, 0x01#8, 0x02#8, 0x03#8] 0x40DEBE08#32) := by decide

/-- V2.7. -/
theorem test_decode_other : decode .record [0x00#8, 0x00#8, 0x00#8, 0x03#8, 0x74#8, 0x45#8, 0x58#8, 0x74#8, 0x6B#8, 0x00#8,
      0x76#8, 0xCB#8, 0x04#8, 0xF3#8, 0x90#8]
    = .instr (.other 0x74455874#32 [0x6B#8, 0x00#8, 0x76#8] 0xCB04F390#32) := by decide

/-- V2.8. -/
theorem test_decode_other_case : decode .record [0x00#8, 0x00#8, 0x00#8, 0x00#8, 0x49#8, 0x48#8, 0x44#8, 0x72#8, 0x00#8,
      0x00#8, 0x00#8, 0x00#8]
    = .instr (.other 0x49484472#32 [] 0#32) := by decide

/-- V2.9. -/
theorem test_decode_other_zero : decode .record [0x00#8, 0x00#8, 0x00#8, 0x00#8, 0x00#8, 0x00#8, 0x00#8, 0x00#8, 0x00#8,
      0x00#8, 0x00#8, 0x00#8]
    = .instr (.other 0#32 [] 0#32) := by decide

/-- R67, tag 0. -/
theorem test_decode_none : decode .row [0x00#8, 0x07#8, 0x08#8, 0x09#8]
    = .instr (.none [0x07#8, 0x08#8, 0x09#8]) := by decide

/-- R67, tag 1. -/
theorem test_decode_sub : decode .row [0x01#8, 0x07#8, 0x08#8, 0x09#8]
    = .instr (.sub [0x07#8, 0x08#8, 0x09#8]) := by decide

/-- R67, tag 2. -/
theorem test_decode_up : decode .row [0x02#8, 0x07#8, 0x08#8, 0x09#8]
    = .instr (.up [0x07#8, 0x08#8, 0x09#8]) := by decide

/-- R67, tag 3. -/
theorem test_decode_average : decode .row [0x03#8, 0x07#8, 0x08#8, 0x09#8]
    = .instr (.average [0x07#8, 0x08#8, 0x09#8]) := by decide

/-- R67, tag 4. -/
theorem test_decode_paeth : decode .row [0x04#8, 0x07#8, 0x08#8, 0x09#8]
    = .instr (.paeth [0x07#8, 0x08#8, 0x09#8]) := by decide

/-- V3.6a. -/
theorem test_decode_illegal : decode .row [0x05#8, 0x00#8, 0x00#8, 0x00#8]
    = .instr (.illegal 0x05#8 [0x00#8, 0x00#8, 0x00#8]) := by decide

/-- V3.6b. -/
theorem test_decode_illegal_top : decode .row [0xFF#8, 0x00#8, 0x00#8, 0x00#8]
    = .instr (.illegal 0xFF#8 [0x00#8, 0x00#8, 0x00#8]) := by decide

/-- R73. -/
theorem test_decode_start : decode .command [0x01#8]
    = .instr (.start) := by decide

/-- What is no instruction is rejected by name (V2.17, V2.20, R65, R73). -/
theorem test_decode_rejects :
    decode .record [0xFF#8, 0xFF#8, 0xFF#8, 0xFF#8, 0x49#8, 0x44#8, 0x41#8, 0x54#8, 0x00#8,
      0x01#8] = .rejected (.shortRecord 8 4294967295)
    ∧ decode .record [0x00#8, 0x00#8, 0x00#8, 0x0D#8, 0x49#8, 0x48#8] = .rejected (.shortRecord 4 4)
    ∧ decode .row [] = .rejected .emptyRow ∧ decode .row [0x00#8, 0x01#8] = .rejected .raggedRow
    ∧ decode .command [0x02#8] = .rejected .noCommand := by decide

/-- The table's numbering (log 7): a KIND, a filter tag, a CTRL value. -/
theorem test_table_words : (decodeTableWord 32 0x49444154).isSome = true ∧ decodeTableWord 8 4 = some (.paeth [])
    ∧ decodeTableWord 8 5 = some (.illegal 5#8 []) ∧ decodeTableWord 1 1 = some .start := by decide

/-! ## One step each -/

/-- V2.1: the first header is hoisted and logged, OFF = 25. -/
theorem test_header : (Tests.nextOf (step (Tests.parsing Tests.headerBytes))).map (fun t => (t.off, t.geom, t.flags.hdrSeen))
    = some (25, { width := 2#32, height := 2#32, bitDepth := 8#8, colorModel := 2#8, compression := 0#8, filterMethod := 0#8,
                  interlace := 0#8 }, true) := by decide

/-- V2.13: a header of 12 bytes is MalformedRecord, sub 0, INFO 0 and 12, OFF = 24, nothing logged. -/
theorem test_header_short :
    (Tests.nextOf (step (Tests.parsing [0x00#8, 0x00#8, 0x00#8, 0x0C#8, 0x49#8, 0x48#8, 0x44#8, 0x52#8, 0x00#8, 0x00#8,
      0x00#8, 0x02#8, 0x00#8, 0x00#8, 0x00#8, 0x02#8, 0x08#8, 0x02#8, 0x00#8, 0x00#8, 0xB9#8, 0x09#8, 0x79#8, 0x3C#8]))).map
        (fun t => (t.phase, t.err, t.off, t.recLog))
      = some (.error, { code := 2#3, sub := 0#1, info0 := 0, info1 := 12 }, 24, []) := by decide

/-- V2.2. -/
theorem test_intent :
    (Tests.nextOf (step (Tests.parsing [0x00#8, 0x00#8, 0x00#8, 0x01#8, 0x73#8, 0x52#8, 0x47#8, 0x42#8, 0x00#8, 0xAE#8,
      0xCE#8, 0x1C#8, 0xE9#8]))).map
        (fun t => (t.recLog.map (fun d => (d.nf, d.f0, d.f1, d.f2)), t.off))
      = some ([(1#3, 0#32, 0#32, 0#32)], 13) := by decide

/-- V2.3. -/
theorem test_physdim :
    (Tests.nextOf (step (Tests.parsing [0x00#8, 0x00#8, 0x00#8, 0x09#8, 0x70#8, 0x48#8, 0x59#8, 0x73#8, 0x00#8, 0x00#8,
      0x0B#8, 0x13#8, 0x00#8, 0x00#8, 0x0B#8, 0x13#8, 0x01#8, 0x00#8, 0x9A#8, 0x9C#8, 0x18#8]))).map
        (fun t => (t.recLog.map (fun d => (d.nf, d.f0, d.f1, d.f2)), t.off))
      = some ([(3#3, 2835#32, 2835#32, 1#32)], 21) := by decide

/-- V2.4. -/
theorem test_gamma :
    (Tests.nextOf (step (Tests.parsing [0x00#8, 0x00#8, 0x00#8, 0x04#8, 0x67#8, 0x41#8, 0x4D#8, 0x41#8, 0x00#8, 0x00#8,
      0xB1#8, 0x8F#8, 0x0B#8, 0xFC#8, 0x61#8, 0x05#8]))).map
        (fun t => (t.recLog.map (fun d => (d.nf, d.f0, d.f1, d.f2)), t.off))
      = some ([(1#3, 45455#32, 0#32, 0#32)], 16) := by decide

/-- V2.12: the terminator's payload is ignored. -/
theorem test_term :
    (Tests.nextOf (step (Tests.parsing [0x00#8, 0x00#8, 0x00#8, 0x02#8, 0x49#8, 0x45#8, 0x4E#8, 0x44#8, 0x01#8, 0x02#8,
      0x00#8, 0x00#8, 0x00#8, 0x00#8]))).map
        (fun t => (t.phase, t.flags.endSeen, t.off))
      = some (.geom, true, 14) := by decide

/-- V2.6 before any header. -/
theorem test_idata :
    (Tests.nextOf (step (Tests.parsing [0x00#8, 0x00#8, 0x00#8, 0x04#8, 0x49#8, 0x44#8, 0x41#8, 0x54#8, 0x00#8, 0x01#8,
      0x02#8, 0x03#8, 0x40#8, 0xDE#8, 0xBE#8, 0x08#8]))).map
        (fun t => (t.zbuf, t.flags.dataBeforeHdr, t.off))
      = some ([0x00#8, 0x01#8, 0x02#8, 0x03#8], true, 16) := by decide

/-- V2.7. -/
theorem test_other :
    (Tests.nextOf (step (Tests.parsing [0x00#8, 0x00#8, 0x00#8, 0x03#8, 0x74#8, 0x45#8, 0x58#8, 0x74#8, 0x6B#8, 0x00#8,
      0x76#8, 0xCB#8, 0x04#8, 0xF3#8, 0x90#8]))).map
        (fun t => (t.recLog.map (fun d => (d.kind, d.kclass, d.crc)), t.off))
      = some ([(0x74455874#32, .other, 0xCB04F390#32)], 15) := by decide

/-- V2.18: OutOfBounds at the checksum comes before MalformedRecord. -/
theorem test_cut_checksum :
    (Tests.nextOf (step (Tests.parsing [0x00#8, 0x00#8, 0x00#8, 0x0C#8, 0x49#8, 0x48#8, 0x44#8, 0x52#8, 0x00#8, 0x00#8,
      0x00#8, 0x02#8, 0x00#8, 0x00#8, 0x00#8, 0x02#8, 0x08#8, 0x02#8, 0x00#8, 0x00#8, 0xB9#8, 0x09#8]))).map
        (fun t => (t.err, t.off))
      = some ({ code := 1#3, sub := 0#1, info0 := 20, info1 := 4 }, 20) := by decide

/-- V3.1 case B. -/
theorem test_none : (Tests.nextOf (exec (.none Tests.body) (Tests.rowing Tests.caseB))).map (fun t => t.grid)
    = some [[1#8, 2#8, 3#8, 10#8, 20#8, 30#8, 250#8, 128#8, 255#8]] := by decide

/-- V3.2 case B. -/
theorem test_sub : (Tests.nextOf (exec (.sub Tests.body) (Tests.rowing Tests.caseB))).map (fun t => t.grid)
    = some [[1#8, 2#8, 3#8, 11#8, 22#8, 33#8, 5#8, 150#8, 32#8]] := by decide

/-- V3.3 case B. -/
theorem test_up : (Tests.nextOf (exec (.up Tests.body) (Tests.rowing Tests.caseB))).map (fun t => t.grid)
    = some [[101#8, 152#8, 203#8, 4#8, 20#8, 29#8, 24#8, 188#8, 89#8]] := by decide

/-- V3.4r case A. -/
theorem test_average_first : (Tests.nextOf (exec (.average Tests.body) (Tests.rowing (List.replicate 9 0#8)))).map (fun t =>
      t.grid)
    = some [[1#8, 2#8, 3#8, 10#8, 21#8, 31#8, 255#8, 138#8, 14#8]] := by decide

/-- V3.4r case B. -/
theorem test_average : (Tests.nextOf (exec (.average Tests.body) (Tests.rowing Tests.caseB))).map (fun t => t.grid)
    = some [[51#8, 77#8, 103#8, 160#8, 58#8, 209#8, 89#8, 187#8, 148#8]] := by decide

/-- V3.5r case A. -/
theorem test_paeth_first : (Tests.nextOf (exec (.paeth Tests.body) (Tests.rowing (List.replicate 9 0#8)))).map (fun t => t.grid)
    = some [[1#8, 2#8, 3#8, 11#8, 22#8, 33#8, 5#8, 150#8, 32#8]] := by decide

/-- V3.5r case B. -/
theorem test_paeth : (Tests.nextOf (exec (.paeth Tests.body) (Tests.rowing Tests.caseB))).map (fun t => t.grid)
    = some [[101#8, 152#8, 203#8, 4#8, 20#8, 29#8, 254#8, 188#8, 28#8]] := by decide

/-- As in V3.6b: tag 255 in row 1 is MalformedRecord, sub 1, INFO 1 and 255; GRID is emptied and ROW stays 1. -/
theorem test_illegal : (Tests.nextOf (step (Tests.secondRow 255#8))).map (fun t => (t.phase, t.err, t.grid, t.row))
    = some (.error, { code := 2#3, sub := 1#1, info0 := 1, info1 := 255 }, [], 1) := by decide

/-- Section 3.3 of the vectors, PAETH in WIDTH 1, fetched from FBUF. -/
theorem test_row_fetch : (Tests.nextOf (step (Tests.secondRow 4#8))).map (fun t => (t.grid, t.tagLog, t.row))
    = some ([[250#8, 251#8, 252#8], [1#8, 3#8, 5#8]], [0#8, 4#8], 2) := by decide

/-- START from IDLE: the block parses, IN_LEN stays (R110). -/
theorem test_start : (Tests.nextOf (step (Tests.acting (.writeReg 0 3) { State.reset with inLen := 7 }))).map
    (fun t => (t.phase, t.inLen, t.off)) = some (.parse, 7, 0) := by decide

/-- START while BUSY is ignored (R18). -/
theorem test_start_busy : (Tests.nextOf (exec .start (Tests.secondRow 4#8))).map (fun t => (t.phase,
      t.row)) = some (.defilter, 1) := by
  decide

/-- V3.7c: 15 bytes are no whole number of rows of 7. -/
theorem test_slice : (Tests.nextOf (step (Tests.slicing 7 15))).map (fun t => (t.phase, t.err))
    = some (.error, { code := 4#3, sub := 0#1, info0 := 15, info1 := 1 }) := by decide

/-- V4.4: without a header the geometry query is MissingHeader (0, 0). -/
theorem test_geom : (Tests.nextOf (step { State.reset with phase := .geom })).map (fun t => (t.phase, t.err))
    = some (.error, { code := 3#3, sub := 0#1, info0 := 0, info1 := 0 }) := by decide

/-- V3.4 and the Paeth tie rule (V3.5 vectors are in spec/95_test_vectors.md section 3.5): the average is not wrapped. -/
theorem test_average_predictor : predAverage 200#8 100#8 0#8 = 150 ∧ predAverage 254#8 255#8 0#8 = 254 := by decide

/-! ## Witnesses: for every statement with hypotheses, a state and operands that meet all of them together -/

/-- The bytes of vector V2.6. -/
def Tests.dataBytes : List Byte := [0x00#8, 0x00#8, 0x00#8, 0x04#8, 0x49#8, 0x44#8, 0x41#8, 0x54#8, 0x00#8, 0x01#8, 0x02#8,
      0x03#8, 0x40#8, 0xDE#8, 0xBE#8, 0x08#8]

/-- A block that has parsed an IDATA record (V2.6) and stands at the terminator. -/
def Tests.afterData : State :=
  { Tests.parsing (Tests.dataBytes ++ Tests.termBytes) with
    off := 16, flags := { hdrSeen := false, dataBeforeHdr := true, endSeen := false }, zbuf := [0x00#8, 0x01#8, 0x02#8, 0x03#8]
    recLog := [descriptorAt State.reset .idata 0x49444154#32 [0x00#8, 0x01#8, 0x02#8, 0x03#8] 0x40DEBE08#32] }

/-- The descriptor of a header of WIDTH 1 at offset 0. -/
def Tests.headerOne : Descriptor :=
  descriptorAt State.reset .header 0x49484452#32 [0x00#8, 0x00#8, 0x00#8, 0x01#8, 0x00#8, 0x00#8, 0x00#8, 0x01#8, 0x08#8,
      0x02#8, 0x00#8, 0x00#8, 0x00#8] 0#32

/-- A block that is DONE with one row of one pixel, after a header and a terminator. -/
def Tests.finished : State :=
  { State.reset with
    phase := .done, flags := { hdrSeen := true, dataBeforeHdr := false, endSeen := true }, off := 37, recStart := 25,
      inLen := 37
    geom := geometryOf Tests.headerOne
    recLog := [Tests.headerOne, descriptorAt { State.reset with off := 25 } .term 0x49454E44#32 [] 0xAE426082#32]
    stride := 4, nrows := 1, row := 1, fbuf := [1#8, 7#8, 8#8, 9#8], prev := [1#8, 7#8, 8#8, 9#8]
    grid := [[7#8, 8#8, 9#8]], tagLog := [1#8] }

/-- The same block before its finish step, with the two records in IN. -/
def Tests.ending : State :=
  { Tests.finished with
    phase := .defilter
    inMem := Memory.writeBytes [] 0 (encodeRecord 0x49484452#32 [0x00#8, 0x00#8, 0x00#8, 0x01#8, 0x00#8, 0x00#8, 0x00#8, 0x01#8,
        0x08#8, 0x02#8, 0x00#8, 0x00#8, 0x00#8] 0#32 ++ Tests.termBytes) }

/-- A block in ERROR after an empty input (V4.11). -/
def Tests.failed : State :=
  { State.reset with phase := .error, err := { code := 1#3, sub := 0#1, info0 := 0, info1 := 4 } }

/-- A block in GEOM with these flags. -/
def Tests.asking (hdr data : Bool) : State :=
  { State.reset with phase := .geom, flags := { hdrSeen := hdr, dataBeforeHdr := data, endSeen := true } }

theorem test_witness_decode_of_encode : (Instr.header [0x00#8, 0x00#8, 0x00#8, 0x02#8, 0x00#8, 0x00#8, 0x00#8, 0x02#8,
      0x08#8, 0x02#8, 0x00#8, 0x00#8, 0x00#8] 0#32).wellFormed = true ∧ (Instr.illegal 5#8 []).wellFormed = true
    ∧ (Instr.start).wellFormed = true := by decide

theorem test_witness_encode_of_decode : (Stream.record ≠ .command
      ∧ decode .record Tests.termBytes = .instr (.term [] 0xAE426082#32))
    ∧ (Stream.row ≠ .command ∧ decode .row [0x05#8] = .instr (.illegal 5#8 [])) := by decide

theorem test_witness_record_before_anything : (Instr.term [] 0xAE426082#32).stream = .record
      ∧ (Instr.term [] 0xAE426082#32).wellFormed = true := by decide

theorem test_witness_take : (2 ≤ ({ rest := [0xAA#8, 0xBB#8], off := 0 } : Cursor).rest.length)
    ∧ (({ rest := [0xAA#8, 0xBB#8], off := 0 } : Cursor).rest.length < 3) := by decide

theorem test_witness_header : (Tests.parsing []).phase = .parse ∧ (List.replicate 12 0#8 : List Byte).length < 2 ^ 32
    ∧ (List.replicate 12 0#8 : List Byte).length < 13 ∧ (List.replicate 13 0#8 : List Byte).length < 2 ^ 32
    ∧ 13 ≤ (List.replicate 13 0#8 : List Byte).length := by decide

theorem test_witness_metadata : (Tests.parsing []).phase = .parse ∧ 1 ≤ ([0#8] : List Byte).length
      ∧ 9 ≤ (List.replicate 9 0#8 : List Byte).length
    ∧ 4 ≤ (List.replicate 4 0#8 : List Byte).length ∧ (List.replicate 9 0#8 : List Byte).length < 2 ^ 32 := by decide

theorem test_witness_other : (Tests.parsing []).phase = .parse ∧ ([] : List Byte).length < 2 ^ 32
      ∧ 0x49484472#32 ∉ Config.knownKinds := by decide

/-- Meets the hypotheses of TerminatorEndsParsing and of ImageDataJoinsZbuf. -/
theorem test_witness_term_and_data : Tests.afterData.phase = .parse ∧ ([] : List Byte).length < 2 ^ 32 := by decide

theorem test_witness_malformed_record : (Tests.parsing []).phase = .parse
    ∧ ((Config.kindHeader = Config.kindHeader ∧ (List.replicate 12 0#8 : List Byte).length < 13)
      ∧ (Config.kindIntent = Config.kindIntent ∧ ([] : List Byte).length < 1)
      ∧ (Config.kindPhysdim = Config.kindPhysdim ∧ (List.replicate 8 0#8 : List Byte).length < 9)
      ∧ (Config.kindGamma = Config.kindGamma ∧ (List.replicate 3 0#8 : List Byte).length < 4)) := by decide

theorem test_witness_illegal_tag : 4 < (5#8 : Byte).toNat ∧ (Tests.secondRow 5#8).phase = .defilter
      ∧ (Tests.secondRow 5#8).row < (Tests.secondRow 5#8).nrows
    ∧ ([7#8, 8#8, 9#8] : List Byte).length + 1 = (Tests.secondRow 5#8).stride
    ∧ (Tests.secondRow 5#8).prev.length = (Tests.secondRow 5#8).stride := by decide

theorem test_witness_records_frame : (∃ t, exec (.idata [1#8] 0#32) (Tests.parsing []) = .next t ∧ t.phase ≠ .error)
    ∧ (∃ t, exec (.gamma [] 0#32) (Tests.parsing []) = .next t ∧ t.phase = .error) := ⟨⟨_, rfl, by decide⟩, ⟨_, rfl, by decide⟩⟩

theorem test_witness_step_runs_record : Tests.afterData.host = [] ∧ Tests.afterData.phase = .parse
    ∧ decodeRecord Tests.afterData.cursor = .ok (.term [] 0xAE426082#32) { rest := [], off := 28 } := by decide

theorem test_witness_step_runs_row : (Tests.secondRow 4#8).host = [] ∧ (Tests.secondRow 4#8).phase = .defilter
    ∧ (Tests.secondRow 4#8).row < (Tests.secondRow 4#8).nrows
      ∧ (Tests.secondRow 4#8).rowBytes.length = (Tests.secondRow 4#8).stride
    ∧ decodeRow (Tests.secondRow 4#8).rowBytes = .instr (.paeth [7#8, 8#8, 9#8]) := by decide

theorem test_witness_step_runs_command : (Tests.acting (.writeReg 0 1) State.reset).host = .writeReg 0 1 :: []
      ∧ decodeCommand 1 = .instr .start := by decide

theorem test_witness_record_in_input : Tests.afterData.host = [] ∧ Tests.afterData.phase = .parse
      ∧ (Instr.term [] 0xAE426082#32).stream = .record
    ∧ (Instr.term [] 0xAE426082#32).wellFormed = true
      ∧ Tests.afterData.off + (encode (.term [] 0xAE426082#32)).length ≤ Tests.afterData.inLen
    ∧ Tests.afterData.memRead Tests.afterData.off (encode (.term [] 0xAE426082#32)).length = encode (.term [] 0xAE426082#32)
      := by decide

/-- The first 12 bytes of a record of one payload byte: all of it but its last checksum byte. -/
def Tests.cutRecord : List Byte := [0x00#8, 0x00#8, 0x00#8, 0x01#8, 0x74#8, 0x45#8, 0x58#8, 0x74#8, 0x6B#8, 0x00#8, 0x00#8,
      0x00#8]

theorem test_witness_out_of_bounds_0 : ∀ X, X = Tests.parsing (Tests.cutRecord.take 0) → X.host = [] ∧ X.phase = .parse
    ∧ X.inLen - X.off < 4 := by rintro _ rfl; decide

theorem test_witness_out_of_bounds_3 : ∀ X, X = Tests.parsing (Tests.cutRecord.take 3) → X.host = [] ∧ X.phase = .parse
    ∧ X.inLen - X.off < 4 := by rintro _ rfl; decide

theorem test_witness_out_of_bounds_4 : ∀ X, X = Tests.parsing (Tests.cutRecord.take 4) → X.host = [] ∧ X.phase = .parse
    ∧ 4 ≤ X.inLen - X.off ∧ X.inLen - X.off < 8 := by rintro _ rfl; decide

theorem test_witness_out_of_bounds_7 : ∀ X, X = Tests.parsing (Tests.cutRecord.take 7) → X.host = [] ∧ X.phase = .parse
    ∧ 4 ≤ X.inLen - X.off ∧ X.inLen - X.off < 8 := by rintro _ rfl; decide

theorem test_witness_out_of_bounds_8 : ∀ X, X = Tests.parsing (Tests.cutRecord.take 8) → X.host = [] ∧ X.phase = .parse
    ∧ 8 ≤ X.inLen - X.off ∧ X.inLen - X.off < 8 + be (X.memRead X.off 4) := by rintro _ rfl; decide

theorem test_witness_out_of_bounds_9 : ∀ X, X = Tests.parsing (Tests.cutRecord.take 9) → X.host = [] ∧ X.phase = .parse
    ∧ 8 + be (X.memRead X.off 4) ≤ X.inLen - X.off ∧ X.inLen - X.off < 12 + be (X.memRead X.off 4) := by rintro _ rfl; decide

theorem test_witness_out_of_bounds_12 : ∀ X, X = Tests.parsing (Tests.cutRecord.take 12) → X.host = [] ∧ X.phase = .parse
    ∧ 8 + be (X.memRead X.off 4) ≤ X.inLen - X.off ∧ X.inLen - X.off < 12 + be (X.memRead X.off 4) := by rintro _ rfl; decide

theorem test_witness_other_input : Tests.afterData.host = [] ∧ Tests.afterData.phase = .parse
      ∧ (Instr.term [] 0xAE426082#32).stream = .record
    ∧ (Instr.term [] 0xAE426082#32).wellFormed = true ∧ Tests.afterData.cursor.rest = encode (.term [] 0xAE426082#32) ++ []
    ∧ ({ Tests.afterData with inMem := Memory.writeBytes [] 16 (Tests.termBytes ++ [1#8]), inLen := 29 } : State).cursor.rest
        = encode (.term [] 0xAE426082#32) ++ [1#8] := by decide

theorem test_witness_geometry_query : ((Tests.asking false false).host = [] ∧ (Tests.asking false false).phase = .geom
      ∧ (Tests.asking false false).flags.hdrSeen = false)
    ∧ ((Tests.asking true true).host = [] ∧ (Tests.asking true true).phase = .geom
      ∧ (Tests.asking true true).flags.dataBeforeHdr = true)
    ∧ ((Tests.asking true false).host = [] ∧ (Tests.asking true false).phase = .geom
      ∧ (Tests.asking true false).flags.hdrSeen = true
      ∧ (Tests.asking true false).flags.dataBeforeHdr = false) := by decide

theorem test_witness_inflate : ∀ X : State, X = { State.reset with phase := .inflate, zbuf := [1#8] } → X.host = []
      ∧ X.phase = .inflate := by rintro _ rfl; decide

theorem test_witness_slice : ((Tests.slicing 7 13).host = [] ∧ (Tests.slicing 7 13).phase = .slice
      ∧ 1 ≤ (Tests.slicing 7 13).stride
      ∧ (Tests.slicing 7 13).fbuf.length % (Tests.slicing 7 13).stride ≠ 0)
    ∧ ((Tests.slicing 7 14).host = [] ∧ (Tests.slicing 7 14).phase = .slice ∧ 1 ≤ (Tests.slicing 7 14).stride
      ∧ (Tests.slicing 7 14).fbuf.length = 2 * (Tests.slicing 7 14).stride) := by decide

theorem test_witness_finish : ∀ X : State, X = { Tests.finished with phase := .defilter } →
    X.host = [] ∧ X.phase = .defilter ∧ X.row = X.nrows ∧ GridOk X := by rintro _ rfl; decide

/-- Meets the hypotheses of the five statements of a filter and of FiltersCoincideAtTheEdges. -/
theorem test_witness_rows : (Tests.rowing Tests.caseB).phase = .defilter
      ∧ (Tests.rowing Tests.caseB).row < (Tests.rowing Tests.caseB).nrows
    ∧ Tests.body.length + 1 = (Tests.rowing Tests.caseB).stride
      ∧ (Tests.rowing Tests.caseB).prev.length = (Tests.rowing Tests.caseB).stride := by decide

/-- Each clause of PaethPicksTheNearest: a nearest in a tie, b nearest, b in a tie with c, c nearest (operands of V3.5r and
of the
tie rule R150). -/
theorem test_witness_paeth :
    ((4 + 30 - 250 - 4 : Int).natAbs ≤ (4 + 30 - 250 - 30 : Int).natAbs
      ∧ (4 + 30 - 250 - 4 : Int).natAbs ≤ (4 + 30 - 250 - 250 : Int).natAbs)
    ∧ ((3 + 3 - 3 - 3 : Int).natAbs ≤ (3 + 3 - 3 - 3 : Int).natAbs)
    ∧ ((101 + 250 - 100 - 250 : Int).natAbs < (101 + 250 - 100 - 101 : Int).natAbs
      ∧ (101 + 250 - 100 - 250 : Int).natAbs ≤ (101 + 250 - 100 - 100 : Int).natAbs)
    ∧ ((7 + 16 - 10 - 16 : Int).natAbs < (7 + 16 - 10 - 7 : Int).natAbs
      ∧ (7 + 16 - 10 - 16 : Int).natAbs ≤ (7 + 16 - 10 - 10 : Int).natAbs) ∧ paethPredictor 7#8 16#8 10#8 = 16#8
    ∧ ((10 + 20 - 15 - 15 : Int).natAbs < (10 + 20 - 15 - 10 : Int).natAbs
      ∧ (10 + 20 - 15 - 15 : Int).natAbs < (10 + 20 - 15 - 20 : Int).natAbs)
    ∧ paethPredictor 4#8 30#8 250#8 = 4#8 ∧ paethPredictor 101#8 250#8 100#8 = 250#8
      ∧ paethPredictor 10#8 20#8 15#8 = 15#8 := by decide

theorem test_witness_filters_at_edges : (Tests.secondRow 4#8).phase = .defilter
      ∧ (Tests.secondRow 4#8).row < (Tests.secondRow 4#8).nrows
    ∧ ([7#8, 8#8, 9#8] : List Byte).length + 1 = (Tests.secondRow 4#8).stride
    ∧ (Tests.secondRow 4#8).prev.length = (Tests.secondRow 4#8).stride ∧ ([7#8, 8#8, 9#8] : List Byte).length = 3 := by decide

theorem test_witness_zeros_above : ∀ x, byteAt (Tests.rowing (List.replicate 9 0#8)).prev (x + 1) = 0#8 := by
  intro x
  show byteAt (List.replicate 10 0#8) (x + 1) = 0#8
  rw [byteAt, List.getD_eq_getElem?_getD, List.getElem?_replicate]
  split <;> rfl

theorem test_witness_reconstruction : (4#8 : Byte).toNat ≤ 4 ∧ (Tests.secondRow 4#8).phase = .defilter
    ∧ (Tests.secondRow 4#8).row < (Tests.secondRow 4#8).nrows ∧ [7#8, 8#8, 9#8].length + 1 = (Tests.secondRow 4#8).stride
    ∧ (Tests.secondRow 4#8).prev.length = (Tests.secondRow 4#8).stride
    ∧ Reconstructs 4 (Tests.secondRow 4#8).prev.tail [7#8, 8#8, 9#8] [1#8, 3#8, 5#8] := by decide

theorem test_witness_rows_frame : (∃ t, exec (.paeth [7#8, 8#8, 9#8]) (Tests.secondRow 4#8) = .next t ∧ t.phase = .defilter)
    ∧ (∃ t, exec (.illegal 5#8 [7#8, 8#8, 9#8]) (Tests.secondRow 5#8) = .next t ∧ t.phase = .error) := ⟨⟨_, rfl,
      by decide⟩, ⟨_, rfl, by decide⟩⟩

theorem test_witness_start : State.reset.busy = false ∧ Tests.finished.busy = false ∧ Tests.failed.busy = false
      ∧ Tests.afterData.busy = true
    ∧ (Tests.acting (.writeReg 0 2) Tests.finished).host = .writeReg 0 2 :: [] := by decide

theorem test_witness_reset : (Tests.acting .reset Tests.afterData).host = .reset :: []
      ∧ (Tests.acting .reset Tests.afterData).busy = true := by decide

theorem test_witness_read : Tests.afterData.busy = true ∧ Tests.finished.busy = false
    ∧ (hostRead (.reg 22) Tests.finished).isSome = true ∧ hostRead (.reg 23) Tests.finished = Option.none
    ∧ (hostRead (.reg 1) Tests.afterData).isSome = true ∧ hostRead (.reg 0) Tests.afterData = Option.none
    ∧ hostRead (.reg 0) Tests.finished = some (.number 0) ∧ hostRead (.reg 10) Tests.finished = some (.number 1)
    ∧ hostRead (.reg 19) Tests.finished = some (.number 4) ∧ hostRead (.reg 22) Tests.finished = some (.number 1)
    ∧ hostRead .grid Tests.finished = some (.grid [[7#8, 8#8, 9#8]]) ∧ hostRead .grid Tests.failed = Option.none
    ∧ (Tests.acting (.read .grid) Tests.finished).host = .read .grid :: [] := by decide

theorem test_witness_load_input : ((Tests.acting (.writeIn 3 [5#8]) State.reset).host = .writeIn 3 [5#8] :: []
      ∧ (Tests.acting (.writeIn 3 [5#8]) State.reset).busy = false)
    ∧ ((Tests.acting (.writeReg 6 9) State.reset).host = .writeReg 6 9 :: []
      ∧ (Tests.acting (.writeReg 6 9) State.reset).busy = false)
    ∧ ((Tests.acting (.writeIn 3 [5#8]) Tests.afterData).host = .writeIn 3 [5#8] :: []
      ∧ (Tests.acting (.writeIn 3 [5#8]) Tests.afterData).busy = true)
    ∧ ((Tests.acting (.writeReg 6 9) Tests.afterData).host = .writeReg 6 9 :: []
      ∧ (Tests.acting (.writeReg 6 9) Tests.afterData).busy = true) := by decide

theorem test_witness_read_only : ((Tests.acting (.writeReg 22 5) Tests.afterData).host = .writeReg 22 5 :: [] ∧ 22 ≠ 0
      ∧ 22 ≠ 6 ∧ 22 ≤ 22)
    ∧ ((Tests.acting (.writeReg 1 5) State.reset).host = .writeReg 1 5 :: [] ∧ 1 ≠ 0 ∧ 1 ≠ 6 ∧ 1 ≤ 22) := by decide

theorem test_witness_waits : State.reset.host = [] ∧ State.reset.busy = false ∧ Tests.finished.host = []
      ∧ Tests.finished.busy = false
    ∧ Tests.failed.host = [] ∧ Tests.failed.busy = false := by decide

theorem test_witness_stops : (Instr.term [] 0#32).stream = .record ∧ State.reset.phase ≠ .parse ∧ State.reset.phase ≠ .defilter
    ∧ Tests.finished.nrows ≤ Tests.finished.row ∧ [7#8].length + 1 ≠ (Tests.secondRow 4#8).stride
    ∧ (Tests.acting (.writeReg 23 0) State.reset).host = .writeReg 23 0 :: [] ∧ 22 < 23 := by decide

/-- Meets the hypotheses of PhaseTransitions, and of ErrorStays in its last three parts. -/
theorem test_witness_transitions : (∃ t, step Tests.afterData = .next t ∧ Tests.afterData.host = [])
    ∧ (∃ t, step (Tests.acting .pass Tests.afterData) = .next t ∧ (Tests.acting .pass Tests.afterData).host = .pass :: [])
    ∧ (∃ t, step (Tests.acting (.writeReg 0 1) Tests.failed) = .next t ∧ t.phase = .parse)
    ∧ (∃ t, step (Tests.acting .reset Tests.failed) = .next t ∧ t.phase = .idle)
    ∧ (∃ t, step (Tests.acting (.read .recLog) Tests.failed) = .next t ∧ t.phase = .error) :=
  ⟨⟨_, rfl, rfl⟩, ⟨_, rfl, rfl⟩, ⟨_, rfl, rfl⟩, ⟨_, rfl, rfl⟩, ⟨_, rfl, rfl⟩⟩

theorem test_witness_flags_stay : (∃ t, step Tests.afterData = .next t) ∧ (∀ rest, Tests.afterData.host ≠ .reset :: rest)
    ∧ (∀ v rest, v % 2 = 1 → Tests.afterData.host ≠ .writeReg 0 v :: rest) ∧ Tests.afterData.flags.dataBeforeHdr = true
    ∧ (∃ t, step (Tests.secondRow 4#8) = .next t) ∧ (Tests.secondRow 4#8).flags.hdrSeen = true :=
  ⟨⟨_, rfl⟩, nofun, nofun, rfl, ⟨_, rfl⟩, rfl⟩

theorem test_witness_input_kept : (∃ t, step (Tests.acting (.writeReg 6 9) State.reset) = .next t)
    ∧ (∀ rest, (Tests.acting (.writeReg 6 9) State.reset).host ≠ .reset :: rest)
    ∧ (∀ o bytes rest, (Tests.acting (.writeReg 6 9) State.reset).host ≠ .writeIn o bytes :: rest)
    ∧ (∃ t, step (Tests.acting (.writeIn 3 [5#8]) State.reset) = .next t)
    ∧ (∀ v rest, (Tests.acting (.writeIn 3 [5#8]) State.reset).host ≠ .writeReg 6 v :: rest) :=
  ⟨⟨_, rfl⟩, nofun, nofun, ⟨_, rfl⟩, nofun⟩

theorem test_witness_error_commits_nothing : ∃ t, step (Tests.secondRow 5#8) = .next t
      ∧ (Tests.secondRow 5#8).phase ≠ .error ∧ t.phase = .error := ⟨_, rfl, by decide, by decide⟩

theorem test_witness_memory_form : Memory.wf (Tests.acting (.writeIn 3 [5#8]) Tests.finished).inMem = true
    ∧ (∃ t, step (Tests.acting (.writeIn 3 [5#8]) Tests.finished) = .next t) := ⟨by decide, _, rfl⟩

theorem test_witness_stage : StageOk Tests.afterData ∧ (∃ t, step Tests.afterData = .next t) := ⟨by decide, _, rfl⟩

/-- Meets the hypotheses of StepKeepsTheGrid and of StepKeepsTheReconstruction. -/
theorem test_witness_grid : StageOk (Tests.secondRow 4#8) ∧ GridOk (Tests.secondRow 4#8) ∧ ReconOk (Tests.secondRow 4#8)
    ∧ (∃ t, step (Tests.secondRow 4#8) = .next t) := ⟨by decide, by decide, by decide, _, rfl⟩

theorem test_witness_error_report : ErrorOk (Tests.secondRow 5#8) ∧ (∃ t, step (Tests.secondRow 5#8) = .next t
      ∧ t.phase = .error)
    ∧ ErrorOk Tests.failed := ⟨by decide, ⟨_, rfl, by decide⟩, by decide⟩

theorem test_witness_log : StageOk Tests.afterData ∧ ErrorOk Tests.afterData ∧ LogOk Tests.afterData ∧ (∃ t,
      step Tests.afterData = .next t) :=
  ⟨by decide, by decide, by decide, _, rfl⟩

theorem test_witness_zbuf : ZbufOk Tests.afterData ∧ Tests.afterData.busy = true ∧ (∃ t, step Tests.afterData = .next t
      ∧ t.busy = true) :=
  ⟨by decide, by decide, _, rfl, by decide⟩

/-- Meets the hypotheses of BusyBlockSteps and of EveryRunEnds. -/
theorem test_witness_busy_steps : StageOk Tests.afterData ∧ GridOk Tests.afterData ∧ Tests.afterData.busy = true
      ∧ Tests.afterData.host = []
    ∧ StageOk (Tests.secondRow 4#8) ∧ GridOk (Tests.secondRow 4#8) ∧ (Tests.secondRow 4#8).busy = true
      ∧ (Tests.secondRow 4#8).host = [] :=
  ⟨by decide, by decide, rfl, rfl, by decide, by decide, rfl, rfl⟩

/-- The step of a block that is about to be DONE, its log tied to the records in IN. -/
theorem test_witness_end_of_run : StageOk Tests.ending ∧ GridOk Tests.ending ∧ ErrorOk Tests.ending ∧ LogOk Tests.ending
    ∧ ReconOk Tests.ending ∧ Tests.ending.busy = true ∧ (∀ rest, Tests.ending.host ≠ .reset :: rest)
    ∧ (∃ t, step Tests.ending = .next t ∧ t.busy = false ∧ t.phase = .done) :=
  ⟨by decide, by decide, by decide, by decide, by decide, rfl, nofun, _, rfl, rfl, rfl⟩

/-- The step of a block whose input is empty (V4.11). -/
theorem test_witness_end_in_error : StageOk (Tests.parsing []) ∧ GridOk (Tests.parsing []) ∧ ErrorOk (Tests.parsing [])
    ∧ LogOk (Tests.parsing []) ∧ ReconOk (Tests.parsing []) ∧ (Tests.parsing []).busy = true
    ∧ (∀ rest, (Tests.parsing []).host ≠ .reset :: rest)
    ∧ (∃ t, step (Tests.parsing []) = .next t ∧ t.busy = false ∧ t.phase = .error) :=
  ⟨by decide, by decide, by decide, by decide, by decide, rfl, nofun, _, rfl, rfl, rfl⟩

/-- Each clause of BusyStepsMakeProgress: forward, on in PARSE, on in DEFILTER. -/
theorem test_witness_progress : (Tests.afterData.busy = true ∧ Tests.afterData.host = []
      ∧ ∃ t, step Tests.afterData = .next t ∧ t.phase = .geom)
    ∧ ((Tests.parsing Tests.dataBytes).busy = true ∧ (Tests.parsing Tests.dataBytes).host = []
      ∧ ∃ t, step (Tests.parsing Tests.dataBytes) = .next t ∧ t.phase = .parse)
    ∧ ((Tests.secondRow 4#8).busy = true ∧ (Tests.secondRow 4#8).host = []
      ∧ ∃ t, step (Tests.secondRow 4#8) = .next t ∧ t.phase = .defilter) :=
  ⟨⟨rfl, rfl, _, rfl, by decide⟩, ⟨rfl, rfl, _, rfl, by decide⟩, ⟨rfl, rfl, _, rfl, by decide⟩⟩

end Sys2Proof
end

section
/-! PROOF. The STATUS register (spec/10_state.md R19): its nine digits, and what each of them shows of PHASE and the flags. -/

namespace Sys2Proof.Machine

open Sys2Proof

theorem bit_le_one (b : Bool) : bit b ≤ 1 := by cases b <;> decide

/-- A binary digit that holds a flag is read back as that flag. -/
theorem testBit_of_digit {n i : Nat} {b : Bool} (h : n / 2 ^ i % 2 = bit b) : n.testBit i = b := by
  rw [Nat.testBit_eq_decide_div_mod_eq, h]
  cases b <;> rfl

theorem Phase.busy_iff (p : Phase) :
    p.busy = true ↔ p = .parse ∨ p = .geom ∨ p = .inflate ∨ p = .slice ∨ p = .defilter := by
  cases p <;> decide

/-- The digits of STATUS (R19): PHASE below 8, then one digit for each view and each flag. -/
theorem State.status_digits (s : State) :
    s.status < 2 ^ 9
    ∧ s.status % 8 = s.phase.code.toNat
    ∧ s.status / 2 ^ 3 % 2 = bit s.busy
    ∧ s.status / 2 ^ 4 % 2 = bit s.doneOut
    ∧ s.status / 2 ^ 5 % 2 = bit s.errOut
    ∧ s.status / 2 ^ 6 % 2 = bit s.flags.hdrSeen
    ∧ s.status / 2 ^ 7 % 2 = bit s.flags.dataBeforeHdr
    ∧ s.status / 2 ^ 8 % 2 = bit s.flags.endSeen := by
  have hphase := s.phase.code.isLt
  have hbusy := bit_le_one s.busy
  have hdone := bit_le_one s.doneOut
  have herr := bit_le_one s.errOut
  have hhdr := bit_le_one s.flags.hdrSeen
  have hdata := bit_le_one s.flags.dataBeforeHdr
  have hend := bit_le_one s.flags.endSeen
  rw [State.status]
  refine ⟨?_, ?_, ?_, ?_, ?_, ?_, ?_, ?_⟩ <;> omega

/-- Settles O35: each bit is a digit of STATUS, and BUSY, DONE and ERR are read off PHASE. -/
theorem statusFields : Obligations.StatusFields := by
  intro s
  obtain ⟨hlt, hphase, hbusy, hdone, herr, hhdr, hdata, hend⟩ := s.status_digits
  refine ⟨hlt, hphase, ?_, ?_, ?_, testBit_of_digit hhdr, testBit_of_digit hdata, testBit_of_digit hend⟩
  · rw [testBit_of_digit hbusy]
    exact s.phase.busy_iff
  · rw [testBit_of_digit hdone]
    exact decide_eq_true_iff
  · rw [testBit_of_digit herr]
    exact decide_eq_true_iff

end Sys2Proof.Machine
end

section
/-! PROOF. The transitions of PHASE (spec/10_state.md R15): the phase after each of the block's steps, and after an action from
outside. -/

namespace Sys2Proof.Machine

open Sys2Proof

/-- Of the record classes only TERM moves PHASE (R116). -/
@[simp] theorem classEffect_phase (kc : KClass) (p : List Byte) (d : Descriptor) (s : State) :
    (classEffect kc p d s).phase = if kc = .term then .geom else s.phase := by
  cases kc <;> rfl

theorem stepParse_phase {s t : State} (h : stepParse s = .next t) (hs : s.phase = .parse) :
    t.phase = .parse ∨ t.phase = .geom ∨ t.phase = .error := by
  rcases stepParse_next h with ⟨o, n, -, rfl⟩ | ⟨k, p, crc, c, -, -, -, ⟨-, rfl⟩ | ⟨-, rfl⟩⟩
  · exact .inr (.inr rfl)
  · exact .inr (.inr rfl)
  · by_cases hk : classify k = .term
    · exact .inr (.inl (by simp [hk]))
    · exact .inl (by simp [hk, hs])

theorem stepGeom_phase {s t : State} (h : stepGeom s = .next t) : t.phase = .inflate ∨ t.phase = .error := by
  rcases stepGeom_next h with ⟨-, rfl⟩ | ⟨-, -, rfl⟩
  · exact .inr rfl
  · exact .inl rfl

theorem inflateWith_phase (answer : DecompressAnswer) (s : State) :
    (inflateWith answer s).phase = .slice ∨ (inflateWith answer s).phase = .error := by
  cases answer with
  | bytes r => exact .inl rfl
  | corruptStream => exact .inr rfl

theorem stepSlice_phase {s t : State} (h : stepSlice s = .next t) : t.phase = .defilter ∨ t.phase = .error := by
  obtain ⟨-, ⟨-, rfl⟩ | ⟨-, rfl⟩⟩ := stepSlice_next h
  · exact .inr rfl
  · exact .inl rfl

theorem stepDefilter_phase {s t : State} (h : stepDefilter s = .next t) (hs : s.phase = .defilter) :
    t.phase = .defilter ∨ t.phase = .done ∨ t.phase = .error := by
  rcases stepDefilter_next h with ⟨tag, body, -, -, ⟨-, out, l, rfl, -⟩ | ⟨-, rfl⟩⟩ | ⟨-, rfl⟩
  · exact .inl hs
  · exact .inr (.inr rfl)
  · exact .inr (.inl rfl)

/-- A block that is not BUSY may stay where it is. -/
theorem blockMove_self {p : Phase} (h : p.busy = false) : blockMove p p = true := by
  revert h
  cases p <;> decide

/-- The block's own step moves PHASE along the pipeline (R15). -/
theorem blockStep_blockMove {s t : State} (h : blockStep s = .next t) : blockMove s.phase t.phase = true := by
  rcases blockStep_next h with
    ⟨hb, rfl⟩ | ⟨hs, h⟩ | ⟨hs, h⟩ | ⟨hs, rfl⟩ | ⟨hs, h⟩ | ⟨hs, h⟩
  · exact blockMove_self hb
  · rw [hs]; exact decide_eq_true (stepParse_phase h hs)
  · rw [hs]; exact decide_eq_true (stepGeom_phase h)
  · rw [hs]; exact decide_eq_true (inflateWith_phase _ s)
  · rw [hs]; exact decide_eq_true (stepSlice_phase h)
  · rw [hs]; exact decide_eq_true (stepDefilter_phase h hs)

/-- From outside, PHASE is moved by reset, and by START while the block is not BUSY (R15, R18). -/
theorem hostStep_phase {a : HostAct} {s t : State} (ha : a ≠ .pass) (h : hostStep a s = .next t) :
    t.phase = s.phase
    ∨ (a = .reset ∧ t.phase = .idle)
    ∨ (s.busy = false ∧ t.phase = .parse ∧ ∃ v, a = .writeReg 0 v ∧ v % 2 = 1) := by
  rcases hostStep_next ha h with
    rfl | ⟨o, bytes, -, -, rfl⟩ | ⟨v, -, -, rfl⟩ | ⟨v, rfl, hv, hb, rfl⟩ | ⟨rfl, rfl⟩
  · exact .inl rfl
  · exact .inl rfl
  · exact .inl rfl
  · exact .inr (.inr ⟨hb, rfl, v, rfl, hv⟩)
  · exact .inr (.inl ⟨rfl, rfl⟩)

/-- Settles O41: the block's turn, listed or not, is `blockStep`, and every other action is `hostStep`; neither looks at the
actions still to come. -/
theorem phaseTransitions : Obligations.PhaseTransitions := by
  refine ⟨rfl, fun s t h => ⟨?_, fun a rest hs ha => ?_⟩⟩
  · rintro (hs | ⟨rest, hs⟩)
    · rw [step_of_nil hs] at h
      exact blockStep_blockMove h
    · rw [step_of_cons hs] at h
      exact blockStep_blockMove (s := { s with host := rest }) h
  · rw [step_of_cons hs] at h
    exact hostStep_phase (s := { s with host := rest }) ha h

end Sys2Proof.Machine
end

section
/-! PROOF. A record that is cut short (spec/40_bytecursor.md R83, spec/41_record_parser.md R90): where PARSEONE's reads fail, and
the PARSE step that ends in OutOfBounds there (R171). -/

namespace Sys2Proof.Machine

open Sys2Proof

/-- A record that decodes was whole: its four fields take twelve bytes and the LENGTH that its first four bytes say. -/
theorem decodeRecord_ok_whole {c c' : Cursor} {i : Instr} (h : decodeRecord c = .ok i c') :
    12 + be (c.rest.take 4) ≤ c.rest.length := by
  obtain ⟨k, p, crc, -, hp, hrest, -⟩ := decodeRecord_ok h
  have hfield : c.rest.take 4 = wordBytes (BitVec.ofNat 32 p.length) := by rw [hrest]; rfl
  rw [hfield, be_wordBytes, BitVec.toNat_ofNat, Nat.mod_eq_of_lt hp, hrest, List.length_append, encodeRecord_length]
  exact Nat.le_add_right _ _

/-- The record's reads fail at the first field that is not whole, and nowhere else (R83, R90). The four ranges of remaining bytes
exclude each other, so the report is the only one possible. -/
theorem decodeRecord_short_iff {c : Cursor} {o n : Nat} :
    decodeRecord c = .short o n ↔
      (c.rest.length < 4 ∧ o = c.off ∧ n = 4)
      ∨ (4 ≤ c.rest.length ∧ c.rest.length < 8 ∧ o = c.off + 4 ∧ n = 4)
      ∨ (8 ≤ c.rest.length ∧ c.rest.length < 8 + be (c.rest.take 4) ∧ o = c.off + 8 ∧ n = be (c.rest.take 4))
      ∨ (8 + be (c.rest.take 4) ≤ c.rest.length ∧ c.rest.length < 12 + be (c.rest.take 4)
          ∧ o = c.off + 8 + be (c.rest.take 4) ∧ n = 4) := by
  refine ⟨decodeRecord_short, fun h => ?_⟩
  cases hd : decodeRecord c with
  | ok i c' =>
    have hwhole := decodeRecord_ok_whole hd
    omega
  | short o' n' =>
    have hreport := decodeRecord_short hd
    obtain ⟨rfl, rfl⟩ : o' = o ∧ n' = n := by omega
    rfl

/-- The first four bytes at the cursor are those of IN at OFF, if IN has that many left. -/
theorem State.cursor_rest_take_four {s : State} (h : 4 ≤ s.inLen - s.off) : s.cursor.rest.take 4 = s.memRead s.off 4 :=
  s.memRead_take _ _ _ h

/-- A PARSE step whose reads fail ends in the error entry (R171). -/
theorem step_of_decodeRecord_short {s : State} {o n : Nat} (hh : s.host = []) (hp : s.phase = .parse)
    (hd : decodeRecord s.cursor = .short o n) : step s = .next (s.failRead o n) := by
  rw [step_of_nil hh, blockStep, hp]
  simp only [stepParse, hd]

/-- Settles O17: each range of remaining bytes is one disjunct of `decodeRecord_short_iff`. -/
theorem outOfBoundsAtEachField : Obligations.OutOfBoundsAtEachField := by
  intro s hh hp left len fails
  have hleft : s.cursor.rest.length = left := s.cursor_rest_length
  have hlen : 4 ≤ left → be (s.cursor.rest.take 4) = len := fun h => congrArg be (State.cursor_rest_take_four h)
  have hfails : ∀ o n, decodeRecord s.cursor = .short o n → fails o n := fun _ _ => step_of_decodeRecord_short hh hp
  refine ⟨fun h => hfails _ _ ?_, fun h4 h => hfails _ _ ?_, fun h8 h => hfails _ _ ?_, fun h8 h => hfails _ _ ?_⟩ <;>
    rw [decodeRecord_short_iff, hleft, s.cursor_off]
  · exact .inl ⟨h, rfl, rfl⟩
  · exact .inr (.inl ⟨h4, h, rfl, rfl⟩)
  · rw [hlen (by omega)]
    exact .inr (.inr (.inl ⟨h8, h, rfl, rfl⟩))
  · rw [hlen (by omega)]
    exact .inr (.inr (.inr ⟨h8, h, rfl, rfl⟩))

end Sys2Proof.Machine
end

section
/-! PROOF. CLASSIFY(K) (spec/41_record_parser.md R91): OTHER outside the six kinds, and a different class at each of the six. -/

namespace Sys2Proof.Machine

open Sys2Proof

/-- CLASSIFY takes the six kinds to six different classes (R91); so the kinds are pairwise different too. -/
theorem knownKinds_map_classify_nodup : (Config.knownKinds.map classify).Nodup := by decide

theorem classify_ne_other_of_mem {k : Word32} (h : k ∈ Config.knownKinds) : classify k ≠ .other := by
  have hother : KClass.other ∉ Config.knownKinds.map classify := by decide
  exact fun hk => hother (hk ▸ List.mem_map_of_mem h)

theorem classify_of_not_mem {k : Word32} (h : k ∉ Config.knownKinds) : classify k = .other := by
  simp only [Config.knownKinds, List.mem_cons, List.not_mem_nil, or_false, not_or] at h
  obtain ⟨h1, h2, h3, h4, h5, h6⟩ := h
  rw [classify, if_neg h1, if_neg h2, if_neg h3, if_neg h4, if_neg h5, if_neg h6]

theorem classify_eq_other_iff {k : Word32} : classify k = .other ↔ k ∉ Config.knownKinds :=
  ⟨fun h hk => classify_ne_other_of_mem hk h, classify_of_not_mem⟩

/-- The class `c` of one of the six kinds is the class of no other value (R91). -/
theorem classify_eq_iff_eq {k kd : Word32} {c : KClass} (hkd : kd ∈ Config.knownKinds) (hc : classify kd = c) :
    classify k = c ↔ k = kd := by
  subst hc
  refine ⟨fun h => ?_, congrArg classify⟩
  by_cases hk : k ∈ Config.knownKinds
  · exact List.inj_on_of_nodup_map knownKinds_map_classify_nodup hk hkd h
  · exact absurd (h.symm.trans (classify_of_not_mem hk)) (classify_ne_other_of_mem hkd)

/-- Settles O5: the first six clauses are `classify_eq_iff_eq` at the six kinds. -/
theorem classifyByExactEquality : Obligations.ClassifyByExactEquality := by
  refine ⟨knownKinds_map_classify_nodup.of_map, fun k => ⟨?_, ?_, ?_, ?_, ?_, ?_, classify_eq_other_iff⟩⟩ <;>
    exact classify_eq_iff_eq (by decide) (by decide)

end Sys2Proof.Machine
end

section
/-! PROOF. The records the container acts on (spec/42_container.md R113 to R116): what the descriptor of a committed record holds,
and the effect of HEADER, TERM and IDATA. -/

namespace Sys2Proof.Machine

open Sys2Proof

/-- The descriptor of a committed record, written out: its fields are those of the claims (R68, R92). -/
theorem descriptorAt_eq {s : State} {kc : KClass} {k : Word32} {p : List Byte} {crc f0 f1 f2 f3 f4 f5 f6 : Word32}
    (hp : schemaLen kc ≤ p.length) (hf : fieldsOf kc p = [f0, f1, f2, f3, f4, f5, f6]) :
    descriptorAt s kc k p crc = {
      start := s.off, length := BitVec.ofNat 32 p.length, kind := k, kclass := kc, payloadOff := s.off + 8, crc := crc
      nf := BitVec.ofNat 3 (schema kc).length, f0 := f0, f1 := f1, f2 := f2, f3 := f3, f4 := f4, f5 := f5, f6 := f6 } := by
  have hfields := (descriptorAt_fields s kc k p crc hp).trans hf
  simp only [List.cons.injEq, and_true] at hfields
  obtain ⟨rfl, rfl, rfl, rfl, rfl, rfl, rfl⟩ := hfields
  rw [descriptorAt, descriptorOf, takeFields_length]

/-- The low byte of a one-byte field is the payload byte it was read from (R69). -/
@[simp] theorem extractLsb'_word1 (p : List Byte) (o : Nat) : (word1 p o).extractLsb' 0 8 = byteAt p o := by
  rw [word1, BitVec.extractLsb'_setWidth_of_le (by decide), BitVec.extractLsb'_eq_self]

theorem exec_header (p : List Byte) (crc : Word32) (s : State) :
    exec (.header p crc) s = parseStep .header Config.kindHeader p crc (classEffect .header p) s := rfl

theorem exec_term (p : List Byte) (crc : Word32) (s : State) :
    exec (.term p crc) s = parseStep .term Config.kindTerm p crc (classEffect .term p) s := rfl

theorem exec_idata (p : List Byte) (crc : Word32) (s : State) :
    exec (.idata p crc) s = parseStep .idata Config.kindIdata p crc (classEffect .idata p) s := rfl

/-- Settles O7: below 13 bytes the shared PARSE step raises; from 13 bytes on the descriptor holds the seven fields, and its
one-byte fields give the geometry registers back their payload bytes. -/
theorem headerHoistsOnce : Obligations.HeaderHoistsOnce := by
  intro p crc s hs _
  rw [exec_header]
  refine ⟨fun hshort => ?_, fun hlen => ?_⟩
  · rw [parseStep_short hs hshort]
    rfl
  · have hwhole : schemaLen .header ≤ p.length := hlen
    rw [parseStep_whole hs hwhole, descriptorAt_eq hwhole rfl]
    simp only [classEffect, State.hoist, geometryOf, extractLsb'_word1]
    rfl

/-- Settles O10: a terminator needs no payload, so it is always committed, and `noteEnd` follows. -/
theorem terminatorEndsParsing : Obligations.TerminatorEndsParsing := by
  intro p crc s hs _
  rw [exec_term, parseStep_whole hs (Nat.zero_le _), descriptorAt_eq (Nat.zero_le _) rfl]
  rfl

/-- Settles O11: image data needs no payload length, so it is always committed; whether `noteData` sets its flag depends on
HDR_SEEN alone. -/
theorem imageDataJoinsZbuf : Obligations.ImageDataJoinsZbuf := by
  intro p crc s hs _
  have hflag : (s.flags.dataBeforeHdr || !s.flags.hdrSeen) = if s.flags.hdrSeen then s.flags.dataBeforeHdr else true := by
    cases s.flags.hdrSeen <;> simp
  rw [exec_idata, parseStep_whole hs (Nat.zero_le _), descriptorAt_eq (Nat.zero_le _) rfl, ← hflag]
  rfl

end Sys2Proof.Machine
end

section
/-! PROOF. The geometry query (spec/42_container.md R119). -/

namespace Sys2Proof.Machine

open Sys2Proof

theorem step_of_geom {s : State} (hh : s.host = []) (hp : s.phase = .geom) : step s = stepGeom s := by
  rw [step_of_nil hh, blockStep, hp]

/-- Settles O19: the two clauses are the two branches of the GEOM step. -/
theorem geometryQuery : Obligations.GeometryQuery := by
  intro s hh hp
  rw [step_of_geom hh hp]
  refine ⟨fun hmissing => if_pos hmissing, fun hseen hdata => if_neg ?_⟩
  simp [hseen, hdata]

end Sys2Proof.Machine
end

section
/-! PROOF. The call of the external decompressor (spec/43_decompressor_port.md R130, R132). -/

namespace Sys2Proof.Machine

open Sys2Proof

/-- In INFLATE the block's step is one call with the whole of ZBUF, whose answer `inflateWith` acts on (R130). -/
theorem step_of_inflate {s : State} (hh : s.host = []) (hp : s.phase = .inflate) :
    step s = .next (inflateWith (Config.decompress s.zbuf) s) := by
  rw [step_of_nil hh, blockStep, hp, stepInflate]

/-- Settles O20: the step is one call, and each of the decompressor's two answers has its own next state. -/
theorem inflateCallsTheDecompressor : Obligations.InflateCallsTheDecompressor := by
  intro s hh hp
  rw [step_of_inflate hh hp]
  cases Config.decompress s.zbuf with
  | bytes r => rfl
  | corruptStream => rfl

end Sys2Proof.Machine
end

section
/-! PROOF. The scanline reconstructor (spec/44_scanline_reconstructor.md): slicing FBUF into rows (R140), and the row each of the
five filters delivers (R144 to R148). -/

namespace Sys2Proof.Machine

open Sys2Proof

/-! ## SLICE (R140) -/

theorem step_of_slice {s : State} (hh : s.host = []) (hp : s.phase = .slice) : step s = stepSlice s := by
  rw [step_of_nil hh, blockStep, hp]

/-- An FBUF that is no whole number of rows ends the run before any row is looked at. -/
theorem stepSlice_truncated {s : State} (h0 : s.stride ≠ 0) (h : s.fbuf.length % s.stride ≠ 0) :
    stepSlice s = .next (State.raise .truncatedImageData 0#1 s.fbuf.length (s.fbuf.length % s.stride) s) := by
  rw [stepSlice, if_neg h0, if_pos h]

theorem stepSlice_whole {s : State} {n : Nat} (h0 : s.stride ≠ 0) (h : s.fbuf.length = n * s.stride) :
    stepSlice s = .next { s with nrows := n, row := 0, prev := List.replicate s.stride 0#8, phase := .defilter } := by
  have hmod : s.fbuf.length % s.stride = 0 := by rw [h, Nat.mul_mod_left]
  have hdiv : s.fbuf.length / s.stride = n := by rw [h, Nat.mul_div_cancel _ (Nat.pos_of_ne_zero h0)]
  rw [stepSlice, if_neg h0, if_neg (not_not_intro hmod), hdiv]

/-- Settles O21: STRIDE is not 0, so the SLICE step is one of its two branches that answer a next state. -/
theorem sliceCutsRows : Obligations.SliceCutsRows := by
  intro s hh hp hstride
  have h0 : s.stride ≠ 0 := Nat.one_le_iff_ne_zero.mp hstride
  rw [step_of_slice hh hp]
  exact ⟨stepSlice_truncated h0, fun n => stepSlice_whole h0⟩

/-! ## Samples -/

theorem toNat_leftSample (l : List Byte) (k : Nat) :
    (leftSample l k).toNat = if k < 3 then 0 else (byteAt l (k - 3)).toNat := by
  rw [leftSample, apply_ite BitVec.toNat, BitVec.toNat_zero]

/-- The left sample in a row buffer that has its tag in front: position `k - 2` is three to the left of position `k + 1` (R142). -/
theorem leftSample_tail (l : List Byte) (k : Nat) : leftSample l.tail k = if k < 3 then 0#8 else byteAt l (k - 2) := by
  rw [leftSample]
  split
  · rfl
  · rw [byteAt_tail, show k - 3 + 1 = k - 2 by omega]

/-- A row is determined by its length and its samples. -/
theorem eq_of_byteAt_eq {l m : List Byte} (hlen : l.length = m.length) (h : ∀ k, k < m.length → byteAt l k = byteAt m k) :
    l = m := by
  refine List.ext_getElem hlen fun k hl hm => ?_
  have hk := h k hm
  rwa [byteAt, byteAt, List.getD_eq_getElem l _ hl, List.getD_eq_getElem m _ hm] at hk

/-! ## The five filters (R144 to R148) -/

/-- One enabled ROW step with a legal tag, in the positions of the row buffers: the sample above sample `k` is PREV[k+1]. -/
theorem rowStep_enabled (tag : Byte) (pred : Byte → Byte → Byte → Nat) {body : List Byte} {s : State}
    (hphase : s.phase = .defilter) (hrow : s.row < s.nrows) (hbody : body.length + 1 = s.stride)
    (hprev : s.prev.length = s.stride) :
    ∃ out l, rowStep tag pred body s = .next (s.finishRow tag { latch := l, cur := tag :: out })
      ∧ out.length = body.length
      ∧ ∀ k, k < body.length → (byteAt out k).toNat =
          ((byteAt body k).toNat
            + pred (leftSample out k) (byteAt s.prev (k + 1)) (leftSample s.prev.tail k)) % 256 := by
  simpa only [byteAt_tail] using
    rowStep_ready (tag := tag) (pred := pred) ((rowReady_iff body s).mpr ⟨hphase, hrow, hbody, hprev⟩)

/-- Settles O23: the predictor is 0, so every sample of the delivered row is that of the body, and the row is the body. -/
theorem noneKeepsTheRow : Obligations.NoneKeepsTheRow := by
  intro body s hphase hrow hbody hprev
  obtain ⟨out, l, hexec, hlen, hsamples⟩ := rowStep_enabled 0x00#8 predNone hphase hrow hbody hprev
  have hout : out = body := eq_of_byteAt_eq hlen fun k hk => by
    apply BitVec.eq_of_toNat_eq
    rw [hsamples k hk, predNone, Nat.add_zero, Nat.mod_eq_of_lt (byteAt body k).isLt]
  subst hout
  exact ⟨l, hexec⟩

/-- Settles O24: the predictor is the left sample of the delivered row. -/
theorem subAddsTheLeftSample : Obligations.SubAddsTheLeftSample := by
  intro body s hphase hrow hbody hprev
  obtain ⟨out, l, hexec, hlen, hsamples⟩ := rowStep_enabled 0x01#8 predSub hphase hrow hbody hprev
  simp only [predSub, toNat_leftSample] at hsamples
  exact ⟨out, l, hexec, hlen, hsamples⟩

/-- Settles O25: the predictor is the sample of PREV at the same position. -/
theorem upAddsTheSampleAbove : Obligations.UpAddsTheSampleAbove := by
  intro body s hphase hrow hbody hprev
  exact rowStep_enabled 0x02#8 predUp hphase hrow hbody hprev

/-- Settles O26: the predictor halves a sum of natural numbers, so nothing wraps before the final addition. -/
theorem averageAddsTheHalfSum : Obligations.AverageAddsTheHalfSum := by
  intro body s hphase hrow hbody hprev
  obtain ⟨out, l, hexec, hlen, hsamples⟩ := rowStep_enabled 0x03#8 predAverage hphase hrow hbody hprev
  simp only [predAverage, toNat_leftSample] at hsamples
  exact ⟨out, l, hexec, hlen, hsamples⟩

/-- Settles O27: the predictor takes the left sample of the delivered row and the upper and the upper left sample of PREV. -/
theorem paethAddsThePredictor : Obligations.PaethAddsThePredictor := by
  intro body s hphase hrow hbody hprev
  obtain ⟨out, l, hexec, hlen, hsamples⟩ := rowStep_enabled 0x04#8 predPaeth hphase hrow hbody hprev
  simp only [predPaeth, leftSample_tail] at hsamples
  exact ⟨out, l, hexec, hlen, hsamples⟩

end Sys2Proof.Machine
end

section
/-! PROOF. The two causes of MalformedRecord (spec/60_exceptions.md R172). -/

namespace Sys2Proof.Machine

open Sys2Proof

/-- The four short payloads of R172 are each shorter than the schema of the record's class. -/
theorem length_lt_schemaLen_classify {k : Word32} {p : List Byte}
    (h : (k = Config.kindHeader ∧ p.length < 13) ∨ (k = Config.kindIntent ∧ p.length < 1)
      ∨ (k = Config.kindPhysdim ∧ p.length < 9) ∨ (k = Config.kindGamma ∧ p.length < 4)) :
    p.length < schemaLen (classify k) := by
  rcases h with ⟨rfl, hlen⟩ | ⟨rfl, hlen⟩ | ⟨rfl, hlen⟩ | ⟨rfl, hlen⟩ <;>
    exact hlen

/-- An enabled ROW step with an illegal tag loads CUR and enters ERROR (R151). -/
theorem exec_illegal_ready (t : Byte) {body : List Byte} {s : State} (h : rowReady body s = true) :
    exec (.illegal t body) s = .next (State.raise .malformedRecord 1#1 s.row t.toNat { s with cur := t :: body }) :=
  if_pos h

/-- Settles O12: a short payload takes the short branch of the shared PARSE step, and the ROW step with an illegal tag is
enabled; each then is the error entry. -/
theorem malformedRecordCauses : Obligations.MalformedRecordCauses := by
  refine ⟨?_, ?_⟩
  · intro k p crc s hphase _ hshort
    rw [exec_recordOf, parseStep_short hphase (length_lt_schemaLen_classify hshort)]
    rfl
  · intro t body s _ hphase hrow hbody hprev
    rw [exec_illegal_ready t ((rowReady_iff body s).mpr ⟨hphase, hrow, hbody, hprev⟩)]
    rfl

end Sys2Proof.Machine
end

section
/-! PROOF. The block's own step said once, with the next state written out: the six ways into ERROR (spec/60_exceptions.md R171 to
R175), and the eight things a step can be (spec/10_state.md R30). The proofs about every step split along these cases. -/

namespace Sys2Proof.Machine

open Sys2Proof

/-- What a class does to the four parts of the state that some record class writes (R62, last column); the rest it keeps. -/
theorem classEffect_eq (kc : KClass) (p : List Byte) (d : Descriptor) (s : State) :
    classEffect kc p d s = { s with
      phase := if kc = .term then .geom else s.phase
      flags := {
        hdrSeen := s.flags.hdrSeen || decide (kc = .header)
        dataBeforeHdr := s.flags.dataBeforeHdr || (!s.flags.hdrSeen && decide (kc = .idata))
        endSeen := s.flags.endSeen || decide (kc = .term) }
      geom := if s.flags.hdrSeen = false ∧ kc = .header then geometryOf d else s.geom
      zbuf := s.zbuf ++ if kc = .idata then p else [] } := by
  cases kc with
  | header => cases hh : s.flags.hdrSeen <;> simp [classEffect, State.hoist, hh]
  | term => simp [classEffect, State.noteEnd]
  | idata => simp [classEffect, State.noteData, State.appendZ]
  | intent | physdim | gamma | other => simp [classEffect]

/-- The block in `s` finds error `e` with these report values; `u` is `s` with the cursor, or CUR, moved as far as the failing step
got (R171 to R175). The error entry from `u` follows. -/
inductive Raises (s : State) : ErrorKind → BitVec 1 → Nat → Nat → State → Prop
  | cutRecord {o n : Nat} (hphase : s.phase = .parse) (hdecode : decodeRecord s.cursor = .short o n) :
      Raises s .outOfBounds 0#1 o n { s with recStart := s.off, off := o }
  | shortPayload {kc : KClass} {p : List Byte} (hphase : s.phase = .parse) (hshort : p.length < schemaLen kc) :
      Raises s .malformedRecord 0#1 s.off p.length { s with recStart := s.off, off := s.off + 12 + p.length }
  | illegalTag {tag : Byte} {body : List Byte} (hphase : s.phase = .defilter) (htag : 4 < tag.toNat) :
      Raises s .malformedRecord 1#1 s.row tag.toNat { s with cur := tag :: body }
  | missingHeader (hphase : s.phase = .geom) (hmissing : s.flags.hdrSeen = false ∨ s.flags.dataBeforeHdr = true) :
      Raises s .missingHeader 0#1 (bit s.flags.hdrSeen) (bit s.flags.dataBeforeHdr) s
  | truncated (hphase : s.phase = .slice) (hmod : s.fbuf.length % s.stride ≠ 0) :
      Raises s .truncatedImageData 0#1 s.fbuf.length (s.fbuf.length % s.stride) s
  | corrupt (hphase : s.phase = .inflate) : Raises s .corruptStream 0#1 s.zbuf.length 0 s

/-- What a step of the block can be, by the state it leads to (R30, R111, R119, R130, R140, R141, R153). -/
inductive OwnStep (s : State) : State → Prop
  | waits (hbusy : s.busy = false) : OwnStep s s
  | fails {e : ErrorKind} {sub : BitVec 1} {i0 i1 : Nat} {u : State} (hraises : Raises s e sub i0 i1 u) :
      OwnStep s (State.raise e sub i0 i1 u)
  | commits {k : Word32} {p : List Byte} {crc : Word32} {rest : List Byte} {d : Descriptor} (hphase : s.phase = .parse)
      (hlen : p.length < 2 ^ 32) (hschema : schemaLen (classify k) ≤ p.length)
      (hrest : s.cursor.rest = encodeRecord k p crc ++ rest) (hd : d = descriptorAt s (classify k) k p crc) :
      OwnStep s { s with
        recStart := s.off, off := s.off + 12 + p.length, recLog := s.recLog ++ [d]
        phase := if classify k = .term then .geom else .parse
        flags := {
          hdrSeen := s.flags.hdrSeen || decide (classify k = .header)
          dataBeforeHdr := s.flags.dataBeforeHdr || (!s.flags.hdrSeen && decide (classify k = .idata))
          endSeen := s.flags.endSeen || decide (classify k = .term) }
        geom := if s.flags.hdrSeen = false ∧ classify k = .header then geometryOf d else s.geom
        zbuf := s.zbuf ++ if classify k = .idata then p else [] }
  | queries (hphase : s.phase = .geom) (hseen : s.flags.hdrSeen = true) (hdata : s.flags.dataBeforeHdr = false) :
      OwnStep s { s with stride := s.geom.width.toNat * 3 + 1, phase := .inflate }
  | inflates {r : List Byte} (hphase : s.phase = .inflate) : OwnStep s { s with fbuf := r, phase := .slice }
  | slices (hphase : s.phase = .slice) (hstride : s.stride ≠ 0) (hmod : s.fbuf.length % s.stride = 0) :
      OwnStep s { s with
        nrows := s.fbuf.length / s.stride, row := 0, prev := List.replicate s.stride 0#8, phase := .defilter }
  | row {tag : Byte} {body out : List Byte} {l : Latches} (hphase : s.phase = .defilter) (hbytes : s.rowBytes = tag :: body)
      (hrow : s.row < s.nrows) (hbody : body.length + 1 = s.stride) (hprev : s.prev.length = s.stride) (htag : tag.toNat ≤ 4)
      (hout : Reconstructs tag.toNat s.prev.tail body out) :
      OwnStep s { s with
        cur := tag :: out, latch := l, grid := s.grid ++ [out], tagLog := s.tagLog ++ [tag], prev := tag :: out
        row := s.row + 1 }
  | finishes (hphase : s.phase = .defilter) (hrow : s.row = s.nrows) : OwnStep s { s with phase := .done }

theorem stepParse_ownStep {s t : State} (hphase : s.phase = .parse) (h : stepParse s = .next t) : OwnStep s t := by
  rcases stepParse_next h with ⟨o, n, hd, rfl⟩ | ⟨k, p, crc, c, -, hp, hrest, ⟨hshort, rfl⟩ | ⟨hwhole, rfl⟩⟩
  · exact .fails (.cutRecord hphase hd)
  · exact .fails (.shortPayload hphase hshort)
  · have hstep := OwnStep.commits hphase hp hwhole hrest rfl
    rw [← hphase] at hstep
    rw [classEffect_eq]
    exact hstep

theorem stepDefilter_ownStep {s t : State} (hphase : s.phase = .defilter) (h : stepDefilter s = .next t) : OwnStep s t := by
  rcases stepDefilter_next h with ⟨tag, body, hbytes, hready, ⟨htag, out, l, rfl, hout⟩ | ⟨htag, rfl⟩⟩ | ⟨hrow, rfl⟩
  · obtain ⟨-, hrow, hbody, hprev⟩ := (rowReady_iff body s).mp hready
    exact .row hphase hbytes hrow hbody hprev htag hout
  · exact .fails (.illegalTag hphase htag)
  · exact .finishes hphase hrow

theorem inflateWith_ownStep {s : State} (hphase : s.phase = .inflate) (answer : DecompressAnswer) :
    OwnStep s (inflateWith answer s) := by
  cases answer with
  | bytes r => exact .inflates hphase
  | corruptStream => exact .fails (.corrupt hphase)

/-- Everything a step of the block that answers a next state did. -/
theorem blockStep_ownStep {s t : State} (h : blockStep s = .next t) : OwnStep s t := by
  rcases blockStep_next h with ⟨hb, rfl⟩ | ⟨hs, h⟩ | ⟨hs, h⟩ | ⟨hs, rfl⟩ | ⟨hs, h⟩ | ⟨hs, h⟩
  · exact .waits hb
  · exact stepParse_ownStep hs h
  · rcases stepGeom_next h with ⟨hmissing, rfl⟩ | ⟨hseen, hdata, rfl⟩
    · exact .fails (.missingHeader hs hmissing)
    · exact .queries hs hseen hdata
  · exact inflateWith_ownStep hs _
  · obtain ⟨hstride, ⟨hmod, rfl⟩ | ⟨hmod, rfl⟩⟩ := stepSlice_next h
    · exact .fails (.truncated hs hmod)
    · exact .slices hs hstride hmod
  · exact stepDefilter_ownStep hs h

/-- An error is found in a phase of a run. -/
theorem Raises.busy {s u : State} {e : ErrorKind} {sub : BitVec 1} {i0 i1 : Nat} (h : Raises s e sub i0 i1 u) :
    s.busy = true := by
  cases h <;> simp_all [State.busy, Phase.busy]

/-- Finding an error moves the cursor, REC_START or CUR, and nothing else (R178, R180). -/
theorem Raises.frame {s u : State} {e : ErrorKind} {sub : BitVec 1} {i0 i1 : Nat} (h : Raises s e sub i0 i1 u) :
    u = { s with recStart := u.recStart, off := u.off, cur := u.cur } := by
  cases h <;> rfl

/-- The block leaves IN, IN_LEN and the host's coming actions alone (R21, R41). -/
theorem OwnStep.input {s t : State} (h : OwnStep s t) : t.inMem = s.inMem ∧ t.inLen = s.inLen ∧ t.host = s.host := by
  cases h with
  | fails hraises => cases hraises <;> exact ⟨rfl, rfl, rfl⟩
  | _ => exact ⟨rfl, rfl, rfl⟩

/-- A record that stands whole at OFF ends within IN_LEN. -/
theorem State.off_add_le_inLen {s : State} {k : Word32} {p : List Byte} {crc : Word32} {rest : List Byte}
    (h : s.cursor.rest = encodeRecord k p crc ++ rest) : s.off + 12 + p.length ≤ s.inLen := by
  have hlen := congrArg List.length h
  rw [State.cursor_rest_length, List.length_append, encodeRecord_length] at hlen
  omega

end Sys2Proof.Machine
end

section
/-! PROOF. What any step can be, the block's own or an action from outside (spec/10_state.md R30 to R32), and the invariants of the
machine that every step keeps: the form of IN, the stage registers and the error report. -/

namespace Sys2Proof.Machine

open Sys2Proof

/-- What a step can be: the block's own, an access that changes nothing, a load of IN or IN_LEN, START, reset (R30, R203). -/
inductive AnyStep (s : State) : State → Prop
  | own {l : List HostAct} {t : State} (hturn : s.host = l ∨ s.host = .pass :: l) (hown : OwnStep { s with host := l } t) :
      AnyStep s t
  | nothing {l : List HostAct} : AnyStep s { s with host := l }
  | loadsIn {o : Nat} {bytes : List Byte} {l : List HostAct} (hact : s.host = .writeIn o bytes :: l) (hidle : s.busy = false) :
      AnyStep s { s with inMem := Memory.writeBytes s.inMem o bytes, host := l }
  | loadsLen {v : Nat} {l : List HostAct} (hact : s.host = .writeReg 6 v :: l) (hidle : s.busy = false) :
      AnyStep s { s with inLen := v, host := l }
  | starts {v : Nat} {l : List HostAct} (hact : s.host = .writeReg 0 v :: l) (hodd : v % 2 = 1) (hidle : s.busy = false) :
      AnyStep s (State.startRun { s with host := l })
  | resets {l : List HostAct} (hact : s.host = .reset :: l) : AnyStep s (State.doReset { s with host := l })

/-- Everything a step that answers a next state did. -/
theorem step_anyStep {s t : State} (h : step s = .next t) : AnyStep s t := by
  cases hh : s.host with
  | nil =>
    rw [step_of_nil hh] at h
    exact .own (l := s.host) (.inl rfl) (blockStep_ownStep h)
  | cons a l =>
    rw [step_of_cons hh] at h
    by_cases ha : a = .pass
    · subst ha
      exact .own (.inr hh) (blockStep_ownStep h)
    · rcases hostStep_next ha h with
        rfl | ⟨o, bytes, rfl, hb, rfl⟩ | ⟨v, rfl, hb, rfl⟩ | ⟨v, rfl, hv, hb, rfl⟩ | ⟨rfl, rfl⟩
      · exact .nothing
      · exact .loadsIn hh hb
      · exact .loadsLen hh hb
      · exact .starts hh hv hb
      · exact .resets hh

/-! ## The form of IN -/

/-- Settles O49: only the host's write of bytes changes IN, and it keeps the form. -/
theorem stepKeepsMemoryForm : Obligations.StepKeepsMemoryForm := by
  intro s t hs h
  exact step_induction (P := fun u => Memory.wf u.inMem = true) (host := fun _ _ hu => hu)
    (block := fun u v hu hv => by
      obtain ⟨hmem, -, -⟩ := (blockStep_ownStep hv).input
      rwa [hmem])
    (writeIn := fun u o bytes hu _ => Memory.wf_writeBytes u.inMem o bytes hu)
    (writeLen := fun _ _ hu _ => hu) (start := fun _ hu _ => hu) (reset := fun _ _ => reset_memory_wf) hs h

/-! ## The stage registers -/

theorem decodeRecord_short_off_le {c : Cursor} {o n : Nat} (h : decodeRecord c = .short o n) : c.off ≤ o := by
  have := decodeRecord_short h
  omega

/-- Finding an error leaves REC_START at or before the cursor (R22). -/
theorem Raises.recStart_le {s u : State} {e : ErrorKind} {sub : BitVec 1} {i0 i1 : Nat} (h : Raises s e sub i0 i1 u)
    (hs : s.recStart ≤ s.off) : u.recStart ≤ u.off := by
  cases h with
  | cutRecord _ hdecode => exact decodeRecord_short_off_le hdecode
  | shortPayload => show s.off ≤ s.off + 12 + _; omega
  | illegalTag | missingHeader | truncated | corrupt => exact hs

/-- In ERROR the stage invariant asks for the order of REC_START and OFF alone. -/
theorem stageOk_of_error {s : State} (hphase : s.phase = .error) (hs : s.recStart ≤ s.off) : StageOk s := by
  refine ⟨hs, ?_⟩
  simp [State.busy, hphase, Phase.busy, Phase.afterParse, Phase.afterGeom, Phase.beforeStride, Phase.beforeFbuf,
    Phase.beforeRows]

/-- The block's own step keeps the stage invariant: each phase hands on what it was given and adds what it has found. -/
theorem OwnStep.stageOk {s t : State} (h : OwnStep s t) (hs : StageOk s) : StageOk t := by
  have hs0 := hs
  obtain ⟨hstart, hin, hparse, hafter, hgeom, hstride, hfbuf, hrows⟩ := hs0
  cases h with
  | waits => exact hs
  | fails hraises => exact stageOk_of_error rfl (hraises.recStart_le hstart)
  | @commits k p crc rest d hphase hlen hschema hrest hd =>
    have hend := State.off_add_le_inLen hrest
    have hend' : s.off ≤ s.off + 12 + p.length := by omega
    simp only [hphase, Phase.beforeStride, Phase.beforeFbuf, Phase.beforeRows, forall_const] at hparse hstride hfbuf hrows
    by_cases hterm : classify k = .term
    · refine ⟨hend', fun _ => hend, ?_, ?_, ?_, fun _ => hstride, fun _ => hfbuf, fun _ => hrows⟩ <;>
        simp [hterm, Phase.afterGeom]
    · refine ⟨hend', fun _ => hend, ?_, ?_, ?_, fun _ => hstride, fun _ => hfbuf, fun _ => hrows⟩ <;>
        simp [hterm, hparse, Phase.afterGeom, Phase.afterParse]
  | queries hphase hseen hdata =>
    simp only [State.busy, hphase, Phase.busy, Phase.afterParse, Phase.beforeFbuf, Phase.beforeRows, forall_const]
      at hin hafter hfbuf hrows
    exact ⟨hstart, fun _ => hin, nofun, fun _ => hafter, fun _ => ⟨hseen, hdata, rfl⟩, nofun, fun _ => hfbuf,
      fun _ => hrows⟩
  | inflates hphase =>
    simp only [State.busy, hphase, Phase.busy, Phase.afterParse, Phase.afterGeom, Phase.beforeRows, forall_const]
      at hin hafter hgeom hrows
    exact ⟨hstart, fun _ => hin, nofun, fun _ => hafter, fun _ => hgeom, nofun, nofun, fun _ => hrows⟩
  | slices hphase | row hphase | finishes hphase =>
    simp only [State.busy, hphase, Phase.busy, Phase.afterParse, Phase.afterGeom, forall_const] at hin hafter hgeom
    exact ⟨hstart, fun _ => hin, by simp [hphase], fun _ => hafter, fun _ => hgeom, by simp [hphase, Phase.beforeStride],
      by simp [hphase, Phase.beforeFbuf], by simp [hphase, Phase.beforeRows]⟩

/-- Settles O50: the block's own step is `OwnStep.stageOk`; the host writes IN_LEN only while not BUSY, when nothing bounds OFF. -/
theorem stepKeepsTheStage : Obligations.StepKeepsTheStage := by
  intro s t hs h
  cases step_anyStep h with
  | own _ hown => exact hown.stageOk hs
  | nothing | loadsIn => exact hs
  | loadsLen _ hidle =>
    obtain ⟨hstart, -, hrest⟩ := hs
    exact ⟨hstart, fun hbusy => absurd hbusy (by simpa [State.busy] using hidle), hrest⟩
  | starts | resets => simp [StageOk, Flags.zero, Phase.beforeStride, Phase.afterParse, Phase.afterGeom]

/-! ## The error report -/

/-- The report is true of the state the error entry leaves (R170 to R175). -/
theorem Raises.errorOk {s u : State} {e : ErrorKind} {sub : BitVec 1} {i0 i1 : Nat} (h : Raises s e sub i0 i1 u) :
    ErrorOk (State.raise e sub i0 i1 u) := by
  refine ⟨fun hne => absurd rfl hne, fun _ => ⟨rfl, rfl, ?_⟩⟩
  cases h with
  | cutRecord => exact .inl ⟨rfl, rfl, rfl⟩
  | @shortPayload kc p _ hshort =>
    have hmax : schemaLen kc ≤ 13 := by cases kc <;> decide
    exact .inr (.inl ⟨rfl, rfl, rfl, rfl, Nat.lt_of_lt_of_le hshort hmax⟩)
  | @illegalTag tag body _ htag =>
    exact .inr (.inr (.inl ⟨rfl, rfl, rfl, htag, Nat.le_of_lt_succ tag.isLt⟩))
  | missingHeader _ hmissing =>
    refine .inr (.inr (.inr (.inl ⟨rfl, rfl, rfl, rfl, ?_⟩)))
    exact hmissing.imp (congrArg bit) (congrArg bit)
  | truncated _ hmod => exact .inr (.inr (.inr (.inr (.inl ⟨rfl, rfl, rfl, rfl, hmod⟩))))
  | corrupt => exact .inr (.inr (.inr (.inr (.inr ⟨rfl, rfl, rfl, rfl⟩))))

/-- A clear report is true in every phase but ERROR. -/
theorem errorOk_of_clear {s : State} (hphase : s.phase ≠ .error) (herr : s.err = ErrRegs.zero) : ErrorOk s :=
  ⟨fun _ => herr, fun hp => absurd hp hphase⟩

theorem OwnStep.errorOk {s t : State} (h : OwnStep s t) (hs : ErrorOk s) : ErrorOk t := by
  have hclear := hs.1
  cases h with
  | waits => exact hs
  | fails hraises => exact hraises.errorOk
  | @commits k p crc rest d hphase =>
    refine errorOk_of_clear ?_ (hclear (by simp [hphase]))
    show (if classify k = .term then Phase.geom else .parse) ≠ .error
    split <;> nofun
  | row hphase => exact errorOk_of_clear (by simp [hphase]) (hclear (by simp [hphase]))
  | queries hphase | inflates hphase | slices hphase | finishes hphase =>
    exact errorOk_of_clear nofun (hclear (by simp [hphase]))

/-- Settles O52: the registers are written by the error entry, START and reset alone, and what they report stays. -/
theorem stepKeepsTheErrorReport : Obligations.StepKeepsTheErrorReport := by
  intro s t hs h
  cases step_anyStep h with
  | own _ hown => exact hown.errorOk hs
  | nothing | loadsIn | loadsLen => exact hs
  | starts | resets => exact errorOk_of_clear nofun rfl

end Sys2Proof.Machine
end

section
/-! PROOF. GRID, TAGLOG and PREV through a run (spec/20_memory.md R46, spec/10_state.md R14, R27): whole rows with one legal tag
each, and every row the reconstruction of its FBUF row below the row above it. -/

namespace Sys2Proof.Machine

open Sys2Proof

/-! ## Whole rows -/

/-- Before DEFILTER and after an error there is no row to speak of (R46, R178). -/
theorem gridOk_of_empty {s : State} (hphase : s.phase.hasRows = false) (hgrid : s.grid = []) (htag : s.tagLog = []) :
    GridOk s := by
  have hdone : s.phase ≠ .done := by
    intro hd
    rw [hd] at hphase
    cases hphase
  simp [GridOk, hphase, hgrid, htag, hdone]

theorem GridOk.empty {s : State} (hs : GridOk s) (hphase : s.phase.hasRows = false) : s.grid = [] ∧ s.tagLog = [] := by
  obtain ⟨hlen, -, -, -, -, hgrid⟩ := hs
  have hempty := hgrid hphase
  exact ⟨hempty, by rw [← List.length_eq_zero_iff, hlen, hempty, List.length_nil]⟩

/-- A row delivered in DEFILTER has WIDTH*3 samples (R24, R65). -/
theorem OwnStep.gridOk {s t : State} (h : OwnStep s t) (hstage : StageOk s) (hs : GridOk s) : GridOk t := by
  cases h with
  | waits => exact hs
  | fails => exact gridOk_of_empty rfl rfl rfl
  | @commits k p crc rest d hphase =>
    obtain ⟨hgrid, htag⟩ := hs.empty (by rw [hphase]; rfl)
    refine gridOk_of_empty ?_ hgrid htag
    show (if classify k = .term then Phase.geom else .parse).hasRows = false
    split <;> rfl
  | queries hphase | inflates hphase =>
    obtain ⟨hgrid, htag⟩ := hs.empty (by rw [hphase]; rfl)
    exact gridOk_of_empty rfl hgrid htag
  | slices hphase hstride hmod =>
    obtain ⟨hgrid, htag⟩ := hs.empty (by rw [hphase]; rfl)
    have hrows : s.fbuf.length = s.fbuf.length / s.stride * s.stride := (Nat.div_mul_cancel (Nat.dvd_of_mod_eq_zero hmod)).symm
    simp [GridOk, hgrid, htag, Phase.hasRows, ← hrows]
  | @row tag body out l hphase hbytes hrow hbody hprev htag hout =>
    obtain ⟨hlen, hwidth, htags, hcount, -, -⟩ := hs
    obtain ⟨hfbuf, -, hgrid, -⟩ := hcount (by rw [hphase]; rfl)
    obtain ⟨-, -, -, -, hgeom, -⟩ := hstage
    obtain ⟨-, -, hstride⟩ := hgeom (by rw [hphase]; rfl)
    have houtlen : out.length = body.length := hout.1
    refine ⟨by simp [hlen], ?_, ?_, fun _ => ⟨hfbuf, hrow, by simp [hgrid], ?_⟩, by simp [hphase],
      by simp [hphase, Phase.hasRows]⟩
    · simp only [List.forall_mem_append, List.forall_mem_singleton]
      exact ⟨hwidth, by omega⟩
    · simp only [List.forall_mem_append, List.forall_mem_singleton]
      exact ⟨htags, htag⟩
    · show out.length + 1 = s.stride
      omega
  | finishes hphase hrow =>
    obtain ⟨hlen, hwidth, htags, hcount, -, -⟩ := hs
    exact ⟨hlen, hwidth, htags, fun _ => hcount (by rw [hphase]; rfl), fun _ => hrow, nofun⟩

/-- Settles O51: the block's own step is `OwnStep.gridOk`; START and reset leave no row, and the host's other actions leave GRID
alone. -/
theorem stepKeepsTheGrid : Obligations.StepKeepsTheGrid := by
  intro s t hstage hs h
  cases step_anyStep h with
  | own _ hown => exact hown.gridOk hstage hs
  | nothing | loadsIn | loadsLen => exact hs
  | starts | resets => exact gridOk_of_empty rfl rfl rfl

/-! ## The reconstruction -/

/-- Without rows, and outside DEFILTER, nothing is claimed of the reconstruction. -/
theorem reconOk_of_empty {s : State} (hphase : s.phase ≠ .defilter) (hgrid : s.grid = []) : ReconOk s :=
  ⟨by simp [hgrid], fun hp => absurd hp hphase⟩

theorem getD_append_length {α : Type} (l : List α) (a x : α) : (l ++ [a]).getD l.length x = a := by simp

/-- The row that joins GRID does not change the row above any row up to it. -/
theorem State.rowAbove_congr {s t : State} {i : Nat} (hgeom : t.geom = s.geom) {r : List Byte} (hgrid : t.grid = s.grid ++ [r])
    (h : i ≤ s.grid.length) : t.rowAbove i = s.rowAbove i := by
  cases i with
  | zero => rw [State.rowAbove, State.rowAbove, hgeom]
  | succ j => rw [State.rowAbove, State.rowAbove, hgrid, List.getD_append _ _ _ _ h]

/-- Row `i` of GRID is as `ReconOk` claims of every row. -/
abbrev State.RowOk (s : State) (i : Nat) : Prop :=
  byteAt s.tagLog i = byteAt (s.fbufRow i) 0
  ∧ Reconstructs (byteAt (s.fbufRow i) 0).toNat (s.rowAbove i) (s.fbufRow i).tail (s.grid.getD i [])

/-- When a row and its tag join GRID and TAGLOG, the rows already there stay as claimed, and so is the new one if it reconstructs
its row of FBUF below the last (R141). -/
theorem rowOk_append {s t : State} {tag : Byte} {body out : List Byte} (hgeom : t.geom = s.geom) (hfbuf : t.fbuf = s.fbuf)
    (hstride : t.stride = s.stride) (hgrid : t.grid = s.grid ++ [out]) (htag : t.tagLog = s.tagLog ++ [tag])
    (hlen : s.tagLog.length = s.grid.length) (hbytes : s.fbufRow s.grid.length = tag :: body)
    (hout : Reconstructs tag.toNat (s.rowAbove s.grid.length) body out) (hrows : ∀ i, i < s.grid.length → s.RowOk i) :
    ∀ i, i < t.grid.length → t.RowOk i := by
  intro i hi
  have hle : i ≤ s.grid.length := by simpa [hgrid, Nat.lt_succ_iff] using hi
  have hrow : t.fbufRow i = s.fbufRow i := by rw [State.fbufRow, State.fbufRow, hfbuf, hstride]
  rw [State.RowOk, hrow, State.rowAbove_congr hgeom hgrid hle, hgrid, htag]
  rcases Nat.lt_or_eq_of_le hle with hlt | rfl
  · rw [byteAt, List.getD_append _ _ _ _ (hlen ▸ hlt), List.getD_append _ _ _ _ hlt]
    exact hrows i hlt
  · rw [hbytes, byteAt, ← hlen, getD_append_length, hlen, getD_append_length]
    exact ⟨rfl, hout⟩

/-- The block's own step keeps the reconstruction: a ROW step adds the row that reconstructs row ROW of FBUF below PREV, and PREV
is the row above row ROW (R141, R142). -/
theorem OwnStep.reconOk {s t : State} (h : OwnStep s t) (hstage : StageOk s) (hgridOk : GridOk s) (hs : ReconOk s) :
    ReconOk t := by
  obtain ⟨hrows, habove⟩ := hs
  cases h with
  | waits => exact ⟨hrows, habove⟩
  | fails => exact reconOk_of_empty nofun rfl
  | @commits k p crc rest d hphase =>
    refine reconOk_of_empty ?_ (hgridOk.empty (by rw [hphase]; rfl)).1
    show (if classify k = .term then Phase.geom else .parse) ≠ .defilter
    split <;> nofun
  | queries hphase | inflates hphase => exact reconOk_of_empty nofun (hgridOk.empty (by rw [hphase]; rfl)).1
  | slices hphase =>
    have hgrid := (hgridOk.empty (by rw [hphase]; rfl)).1
    obtain ⟨-, -, -, -, hgeom, -⟩ := hstage
    obtain ⟨-, -, hstride⟩ := hgeom (by rw [hphase]; rfl)
    refine ⟨by simp [hgrid], fun _ => ?_⟩
    show (List.replicate s.stride 0#8).tail = List.replicate (s.geom.width.toNat * 3) 0#8
    rw [hstride, List.tail_replicate, Nat.add_sub_cancel]
  | @row tag body out l hphase hbytes hrow hbody hprev htag hout =>
    obtain ⟨hlen, -, -, hcount, -, -⟩ := hgridOk
    obtain ⟨-, -, hcur, -⟩ := hcount (by rw [hphase]; rfl)
    have hbelow := habove hphase
    rw [← hcur] at hbelow
    rw [hbelow] at hout
    refine ⟨rowOk_append (s := s) rfl rfl rfl rfl rfl hlen ?_ hout hrows, fun _ => ?_⟩
    · rw [hcur]
      exact hbytes
    · show out = (s.grid ++ [out]).getD s.row []
      rw [← hcur, getD_append_length]
  | finishes hphase => exact ⟨hrows, nofun⟩

/-- Settles O55: the block's own step is `OwnStep.reconOk`; START and reset leave no row, and the host's other actions leave FBUF
and GRID alone. -/
theorem stepKeepsTheReconstruction : Obligations.StepKeepsTheReconstruction := by
  intro s t hstage hgridOk hs h
  cases step_anyStep h with
  | own _ hown => exact hown.reconOk hstage hgridOk hs
  | nothing | loadsIn | loadsLen => exact hs
  | starts | resets => exact reconOk_of_empty nofun rfl

end Sys2Proof.Machine
end

section
/-! PROOF. REC_LOG and ZBUF through a run (spec/20_memory.md R42, R44; spec/42_container.md R112 to R116): what one more descriptor
makes of the log's chain, flags and geometry, and that the log is the records passed so far as they stand in IN. -/

namespace Sys2Proof.Machine

open Sys2Proof

/-! ## One more descriptor -/

theorem logChain_concat (a e : Nat) (l : List Descriptor) (d : Descriptor) :
    logChain a (l ++ [d]) e = true ↔
      logChain a l d.start = true ∧ d.payloadOff = d.start + 8 ∧ d.start + 12 + d.length.toNat = e := by
  induction l generalizing a with
  | nil =>
    simp only [List.nil_append, logChain, Bool.and_eq_true, decide_eq_true_eq]
    constructor
    · rintro ⟨⟨rfl, hpay⟩, he⟩
      exact ⟨rfl, hpay, he⟩
    · rintro ⟨rfl, hpay, he⟩
      exact ⟨⟨rfl, hpay⟩, he⟩
  | cons x l ih => simp only [List.cons_append, logChain, Bool.and_eq_true, ih, and_assoc]

/-- Image data stands before the first header of a longer log if it did before, or if the new descriptor is image data and no
header came first (R114). -/
theorem logFlags_concat_dataBeforeHdr (l : List Descriptor) (d : Descriptor) :
    (logFlags (l ++ [d])).dataBeforeHdr
      = ((logFlags l).dataBeforeHdr || (!(logFlags l).hdrSeen && decide (d.kclass = .idata))) := by
  induction l with
  | nil => by_cases hd : d.kclass = .header <;> simp [logFlags, hd]
  | cons x l ih =>
    by_cases hx : x.kclass = .header
    · simp [logFlags, hx]
    · simpa [logFlags, hx, Bool.or_assoc] using congrArg (decide (x.kclass = .idata) || ·) ih

/-- The flags of a longer log (R16, R113, R114, R116): what the new descriptor's class adds. -/
theorem logFlags_concat (l : List Descriptor) (d : Descriptor) :
    logFlags (l ++ [d]) = {
      hdrSeen := (logFlags l).hdrSeen || decide (d.kclass = .header)
      dataBeforeHdr := (logFlags l).dataBeforeHdr || (!(logFlags l).hdrSeen && decide (d.kclass = .idata))
      endSeen := (logFlags l).endSeen || decide (d.kclass = .term) } := by
  rw [← logFlags_concat_dataBeforeHdr]
  simp [logFlags]

/-- The geometry of a longer log (R113): a header changes it only if it is the first. -/
theorem logGeometry_concat (l : List Descriptor) (d : Descriptor) :
    logGeometry (l ++ [d])
      = if (logFlags l).hdrSeen = false ∧ d.kclass = .header then geometryOf d else logGeometry l := by
  induction l with
  | nil => by_cases hd : d.kclass = .header <;> simp [logGeometry, logFlags, hd]
  | cons x l ih =>
    by_cases hx : x.kclass = .header
    · simp [logGeometry, logFlags, hx]
    · simpa [logGeometry, logFlags, hx] using ih

theorem kclass_ne_term_of_endSeen {l : List Descriptor} (h : (logFlags l).endSeen = false) : ∀ d ∈ l, d.kclass ≠ .term := by
  simpa [logFlags] using h

/-! ## The descriptor of a committed record -/

theorem descriptorAt_length (s : State) (kc : KClass) (k : Word32) {p : List Byte} (crc : Word32) (hlen : p.length < 2 ^ 32) :
    (descriptorAt s kc k p crc).length.toNat = p.length := by
  show (BitVec.ofNat 32 p.length).toNat = p.length
  rw [BitVec.toNat_ofNat, Nat.mod_eq_of_lt hlen]

/-- A committed record's descriptor has the fields of its class and no others (R62, R63, R68). -/
theorem descriptorAt_ok (s : State) (k : Word32) {p : List Byte} (crc : Word32) (hlen : p.length < 2 ^ 32)
    (hschema : schemaLen (classify k) ≤ p.length) : DescriptorOk (descriptorAt s (classify k) k p crc) := by
  refine ⟨rfl, ?_, ?_, ?_⟩
  · show (BitVec.ofNat 3 (takeFields (schema (classify k)) p).length).toNat = (schema (classify k)).length
    rw [takeFields_length]
    cases classify k <;> rfl
  · rw [descriptorAt_length s _ k crc hlen]
    exact hschema
  · cases classify k <;> simp [descriptorAt, descriptorOf, schema, takeFields]

/-- The payload a new descriptor points to in IN is the payload that was read (R42). -/
theorem payloadOf_descriptorAt {s : State} {kc : KClass} {k : Word32} {p : List Byte} {crc : Word32} {rest : List Byte}
    (hlen : p.length < 2 ^ 32) (h : s.cursor.rest = encodeRecord k p crc ++ rest) :
    s.payloadOf (descriptorAt s kc k p crc) = p := by
  have hend := State.off_add_le_inLen h
  have hslice := congrArg (fun l => (l.drop 8).take p.length) h
  rw [State.cursor, State.memRead_drop, State.memRead_take _ _ _ _ (by omega)] at hslice
  rw [State.payloadOf, descriptorAt_length s kc k crc hlen, descriptorAt, descriptorOf, hslice]
  simp [encodeRecord, wordBytes]

/-! ## The log -/

theorem State.logEnd_of_clear {s : State} (h : s.err = ErrRegs.zero) : s.logEnd = s.off := by
  rw [State.logEnd, h]
  rfl

/-- An error found while the report is clear leaves the end of the log at the cursor it had (R178, R180). -/
theorem Raises.logEnd {s u : State} {e : ErrorKind} {sub : BitVec 1} {i0 i1 : Nat} (h : Raises s e sub i0 i1 u) :
    (State.raise e sub i0 i1 u).logEnd = s.off := by
  cases h <;> rfl

/-- `RecordOk` reads IN alone. -/
theorem recordOk_congr {s t : State} {d : Descriptor} (hmem : t.inMem = s.inMem) : RecordOk t d ↔ RecordOk s d := by
  simp only [RecordOk, State.payloadOf, State.memRead_congr s t hmem]

/-- `LogOk` reads the log, its end, the flags, the geometry, and while BUSY also IN. -/
theorem logOk_congr {s t : State} (hlog : t.recLog = s.recLog) (hend : t.logEnd = s.logEnd) (hflags : t.flags = s.flags)
    (hgeom : t.geom = s.geom) (hbusy : t.busy = true → s.busy = true ∧ t.inMem = s.inMem) (hs : LogOk s) : LogOk t := by
  obtain ⟨hchain, hdesc, hrec, hterm, hfl, hge⟩ := hs
  rw [LogOk, hlog, hend, hflags, hgeom]
  refine ⟨hchain, hdesc, fun hb d hd => ?_, hterm, hfl, hge⟩
  obtain ⟨hsb, hmem⟩ := hbusy hb
  exact (recordOk_congr hmem).mpr (hrec hsb d hd)

/-- The log of a run that has passed no record. -/
theorem logOk_of_empty {s : State} (hlog : s.recLog = []) (hend : s.logEnd = 0) (hflags : s.flags = Flags.zero)
    (hgeom : s.geom = Geometry.zero) : LogOk s := by
  rw [LogOk, hlog, hend, hflags, hgeom]
  exact ⟨rfl, nofun, fun _ => nofun, nofun, rfl, rfl⟩

theorem Phase.ne_error_of_busy {p : Phase} (h : p.busy = true) : p ≠ .error := by
  rintro rfl
  cases h

/-- The block's own step keeps the log: a committed record joins it with its flags and geometry, and an error leaves its end where
the records passed end (R112, R178). -/
theorem OwnStep.logOk {s t : State} (h : OwnStep s t) (hstage : StageOk s) (herror : ErrorOk s) (hs : LogOk s) : LogOk t := by
  obtain ⟨hclear, -⟩ := herror
  cases h with
  | waits => exact hs
  | fails hraises =>
    have hend := State.logEnd_of_clear (hclear (Phase.ne_error_of_busy hraises.busy))
    have hframe := hraises.frame
    rw [hframe]
    refine logOk_congr (s := s) rfl ?_ rfl rfl nofun hs
    rw [← hframe, hraises.logEnd, hend]
  | @commits k p crc rest d hphase hlen hschema hrest hd =>
    have herr := hclear (by simp [hphase])
    have hbusy : s.busy = true := by rw [State.busy, hphase]; rfl
    obtain ⟨-, -, hend, -⟩ := hstage
    have hopen := hend hphase
    obtain ⟨hchain, hdesc, hrec, hterm, hflags, hgeom⟩ := hs
    rw [hflags] at hopen
    have hok : DescriptorOk d := hd ▸ descriptorAt_ok s k crc hlen hschema
    have hrecord : RecordOk s d := hd ▸ record_at hlen hschema hrest
    have hkclass : d.kclass = classify k := hd ▸ rfl
    have hstart : d.start = s.off := hd ▸ rfl
    have hpay : d.payloadOff = s.off + 8 := hd ▸ rfl
    have hlength : d.length.toNat = p.length := hd ▸ descriptorAt_length s _ k crc hlen
    rw [State.logEnd_of_clear herr, ← hstart] at hchain
    refine ⟨?_, ?_, ?_, ?_, ?_, ?_⟩
    · rw [State.logEnd_of_clear (by exact herr)]
      exact (logChain_concat 0 _ s.recLog d).mpr ⟨hchain, by omega, by simp; omega⟩
    · simp only [List.forall_mem_append, List.forall_mem_singleton]
      exact ⟨hdesc, hok⟩
    · simp only [List.forall_mem_append, List.forall_mem_singleton]
      exact fun _ => ⟨hrec hbusy, hrecord⟩
    · rw [List.dropLast_concat]
      exact kclass_ne_term_of_endSeen hopen
    · rw [logFlags_concat, ← hflags, hkclass]
    · rw [logGeometry_concat, ← hflags, ← hgeom, hkclass]
  | queries hphase | inflates hphase | slices hphase | row hphase | finishes hphase =>
    have hbusy : s.busy = true := by rw [State.busy, hphase]; rfl
    exact logOk_congr (s := s) rfl rfl rfl rfl (fun _ => ⟨hbusy, rfl⟩) hs

/-- Settles O53: the block's own step is `OwnStep.logOk`; START and reset empty the log, and the host loads IN only while not
BUSY, when the log is not compared with it. -/
theorem stepKeepsTheLog : Obligations.StepKeepsTheLog := by
  intro s t hstage herror hs h
  cases step_anyStep h with
  | own _ hown => exact hown.logOk hstage herror hs
  | nothing => exact hs
  | loadsIn _ hidle | loadsLen _ hidle =>
    exact logOk_congr (s := s) rfl rfl rfl rfl (fun hbusy => absurd (hidle.symm.trans hbusy) nofun) hs
  | starts | resets => exact logOk_of_empty rfl rfl rfl rfl

/-! ## ZBUF -/

/-- Only a committed image-data record writes ZBUF, and its payload is the one its descriptor points to (R115). -/
theorem OwnStep.zbufOk {s t : State} (h : OwnStep s t) (hs : ZbufOk s) : ZbufOk t := by
  cases h with
  | waits => exact hs
  | fails => exact nofun
  | @commits k p crc rest d hphase hlen hschema hrest hd =>
    have hzbuf := hs (by rw [State.busy, hphase]; rfl)
    have hkclass : d.kclass = classify k := hd ▸ rfl
    have hpay : s.payloadOf d = p := hd ▸ payloadOf_descriptorAt hlen hrest
    intro _
    show s.zbuf ++ (if classify k = .idata then p else [])
      = ((s.recLog ++ [d]).filter (fun d => decide (d.kclass = .idata))).flatMap s.payloadOf
    rw [List.filter_append, List.flatMap_append, ← hzbuf]
    by_cases hdata : classify k = .idata
    · simp [hkclass, hdata, hpay]
    · simp [hkclass, hdata]
  | queries hphase | inflates hphase | slices hphase | row hphase | finishes hphase =>
    exact fun _ => hs (by rw [State.busy, hphase]; rfl)

/-- Settles O54: the block's own step is `OwnStep.zbufOk`; START and reset empty ZBUF and the log, and the host loads IN only while
not BUSY. -/
theorem stepKeepsZbuf : Obligations.StepKeepsZbuf := by
  intro s t hs h
  cases step_anyStep h with
  | own _ hown => exact hown.zbufOk hs
  | nothing => exact hs
  | loadsIn _ hidle | loadsLen _ hidle => exact fun hbusy => absurd (hidle.symm.trans hbusy) nofun
  | starts | resets => exact fun _ => rfl

end Sys2Proof.Machine
end

section
/-! PROOF. The encoder and the decoders are inverse (spec/30_encoding.md R60 to R74), and TAKE (spec/40_bytecursor.md R81). -/

namespace Sys2Proof.Machine

open Sys2Proof

/-! ## Decode of encode -/

theorem illegal_wellFormed_iff (t : Byte) (b : List Byte) :
    (Instr.illegal t b).wellFormed = true ↔ WellFormed.body b = true ∧ 4 < t.toNat := by
  rw [Instr.wellFormed, Bool.and_eq_true, decide_eq_true_iff, Config.maxTag]

/-- Every instruction of the row stream that has an encoding is the row of its tag and body. -/
theorem row_of_stream {i : Instr} (h : i.stream = .row) (hw : i.wellFormed = true) :
    ∃ t b, i = rowOf t b ∧ WellFormed.body b = true := by
  cases i with
  | none b => exact ⟨0x00#8, b, rfl, hw⟩
  | sub b => exact ⟨0x01#8, b, rfl, hw⟩
  | up b => exact ⟨0x02#8, b, rfl, hw⟩
  | average b => exact ⟨0x03#8, b, rfl, hw⟩
  | paeth b => exact ⟨0x04#8, b, rfl, hw⟩
  | illegal t b =>
    obtain ⟨hbody, htag⟩ := (illegal_wellFormed_iff t b).mp hw
    rcases rowOf_cases t b with ⟨rfl, -⟩ | ⟨rfl, -⟩ | ⟨rfl, -⟩ | ⟨rfl, -⟩ | ⟨rfl, -⟩ | ⟨-, hrow⟩
    iterate 5 exact absurd htag (by decide)
    exact ⟨t, b, hrow.symm, hbody⟩
  | header | intent | physdim | gamma | term | idata | other | start => cases h

/-- A whole record decodes to itself, before any continuation (R60, R71). -/
theorem decodeRecord_encode {i : Instr} (h : i.stream = .record) (hw : i.wellFormed = true) (rest : List Byte) (o : Nat) :
    decodeRecord { rest := encode i ++ rest, off := o } = .ok i { rest := rest, off := o + (encode i).length } := by
  obtain ⟨k, p, crc, rfl, hp⟩ := record_of_stream h hw
  rw [encode_recordOf, decodeRecord_append k p crc rest o hp, encodeRecord_length, Nat.add_assoc]

/-- A whole row decodes to itself (R65, R67). -/
theorem decodeRow_encode {i : Instr} (h : i.stream = .row) (hw : i.wellFormed = true) : decodeRow (encode i) = .instr i := by
  obtain ⟨t, b, rfl, hb⟩ := row_of_stream h hw
  rw [encode_rowOf, decodeRow, if_pos hb]

/-- Settles O1: stream by stream, records by `decodeRecord_encode`, rows by `decodeRow_encode`, and START is the value 1. -/
theorem decodeOfEncode : Obligations.DecodeOfEncode := by
  intro i hw
  cases hstream : i.stream with
  | record =>
    have hd := decodeRecord_encode hstream hw [] 0
    rw [List.append_nil] at hd
    simp [decode, hd]
  | row => exact decodeRow_encode hstream hw
  | command =>
    cases i with
    | start => rfl
    | _ => cases hstream

/-- Settles O3: it is `decodeRecord_encode`. -/
theorem recordDecodesBeforeAnything : Obligations.RecordDecodesBeforeAnything := by
  intro i rest o h hw
  exact decodeRecord_encode h hw rest o

/-! ## Encode of decode -/

theorem rowOf_stream (t : Byte) (b : List Byte) : (rowOf t b).stream = .row := by
  rcases rowOf_cases t b with ⟨-, e⟩ | ⟨-, e⟩ | ⟨-, e⟩ | ⟨-, e⟩ | ⟨-, e⟩ | ⟨-, e⟩ <;> rw [e] <;> rfl

theorem rowOf_wellFormed (t : Byte) {b : List Byte} (hb : WellFormed.body b = true) : (rowOf t b).wellFormed = true := by
  rcases rowOf_cases t b with ⟨-, e⟩ | ⟨-, e⟩ | ⟨-, e⟩ | ⟨-, e⟩ | ⟨-, e⟩ | ⟨ht, e⟩ <;> rw [e]
  iterate 5 exact hb
  exact (illegal_wellFormed_iff t b).mpr ⟨hb, ht⟩

/-- The bytes of a record stream that decode as one whole instruction. -/
theorem decode_record_instr {bs : List Byte} {i : Instr} (h : decode .record bs = .instr i) :
    ∃ c, decodeRecord { rest := bs, off := 0 } = .ok i c ∧ c.rest = [] := by
  rw [decode] at h
  split at h
  · next j c hd =>
    split at h
    · next hrest => cases h; exact ⟨c, hd, hrest⟩
    · cases h
  · cases h

/-- Settles O2: what decodes is a record or a row of its fields, and the encoder writes the fields it was read from. -/
theorem encodeOfDecode : Obligations.EncodeOfDecode := by
  intro st bs i hst h
  cases st with
  | record =>
    obtain ⟨c, hd, hrest⟩ := decode_record_instr h
    obtain ⟨k, p, crc, rfl, hp, hbytes, -⟩ := decodeRecord_ok hd
    rw [hrest, List.append_nil] at hbytes
    exact ⟨recordOf_wellFormed k p crc hp, recordOf_stream k p crc, (encode_recordOf k p crc).trans hbytes.symm⟩
  | row =>
    obtain ⟨t, b, rfl, hb, rfl⟩ := decodeRow_instr h
    exact ⟨rowOf_wellFormed t hb, rowOf_stream t b, encode_rowOf t b⟩
  | command => exact absurd rfl hst

/-! ## Words and TAKE -/

/-- Settles O4: each word is decoded by evaluation. -/
theorem wordsOfTheSpecDecode : Obligations.WordsOfTheSpecDecode := by
  refine ⟨?_, ?_, ?_, ?_, ?_, ?_⟩ <;> decide

/-- Settles O6: TAKE's two branches are the two clauses. -/
theorem takeAllOrNothing : Obligations.TakeAllOrNothing := by
  intro n c
  refine ⟨fun h => ?_, fun h => if_pos h⟩
  exact ⟨c.rest.take n, { rest := c.rest.drop n, off := c.off + n }, if_neg (Nat.not_lt.mpr h), List.length_take_of_le h,
    List.take_append_drop n c.rest, rfl⟩

end Sys2Proof.Machine
end

section
/-! PROOF. Records (spec/41_record_parser.md, spec/42_container.md section 2): the classes that are logged only, what no record
touches, that the checksum and the bytes outside the record have no influence, and the step that runs a record. -/

namespace Sys2Proof.Machine

open Sys2Proof

/-- Every instruction of the record stream, with an encoding or not, is the shared PARSE step with the effect of its class. -/
theorem exec_record {i : Instr} (h : i.stream = .record) :
    ∃ kc k p crc, ∀ s, exec i s = parseStep kc k p crc (classEffect kc p) s := by
  cases i with
  | header p crc => exact ⟨.header, Config.kindHeader, p, crc, fun _ => rfl⟩
  | intent p crc => exact ⟨.intent, Config.kindIntent, p, crc, fun _ => rfl⟩
  | physdim p crc => exact ⟨.physdim, Config.kindPhysdim, p, crc, fun _ => rfl⟩
  | gamma p crc => exact ⟨.gamma, Config.kindGamma, p, crc, fun _ => rfl⟩
  | term p crc => exact ⟨.term, Config.kindTerm, p, crc, fun _ => rfl⟩
  | idata p crc => exact ⟨.idata, Config.kindIdata, p, crc, fun _ => rfl⟩
  | other k p crc => exact ⟨.other, k, p, crc, fun _ => rfl⟩
  | none | sub | up | average | paeth | illegal | start => cases h

/-- Outside PARSE no record is executed (R111). -/
theorem parseStep_refused {kc : KClass} {k : Word32} {p : List Byte} {crc : Word32} {e : Descriptor → State → State} {s : State}
    (hs : s.phase ≠ .parse) : parseStep kc k p crc e s = .refused .recordNotEnabled := if_neg hs

/-! ## The classes that are logged only -/

/-- The PARSE step of a class without an effect, with the fields of the claims (R94, R95, R96, R99). -/
theorem parseStep_logOnly {kc : KClass} {k : Word32} {p : List Byte} {crc f0 f1 f2 f3 f4 f5 f6 : Word32} {s : State}
    (hs : s.phase = .parse) (hp : schemaLen kc ≤ p.length) (hf : fieldsOf kc p = [f0, f1, f2, f3, f4, f5, f6]) :
    parseStep kc k p crc logOnly s = .next { s with
      recStart := s.off, off := s.off + 12 + p.length
      recLog := s.recLog ++ [{
        start := s.off, length := BitVec.ofNat 32 p.length, kind := k, kclass := kc, payloadOff := s.off + 8, crc := crc
        nf := BitVec.ofNat 3 (schema kc).length, f0 := f0, f1 := f1, f2 := f2, f3 := f3, f4 := f4, f5 := f5, f6 := f6 }] } := by
  rw [parseStep_whole hs hp, descriptorAt_eq hp hf]
  rfl

/-- Settles O8: each of the three is `parseStep_logOnly` at its class. -/
theorem metadataRecordsAreLogged : Obligations.MetadataRecordsAreLogged := by
  intro p crc s hs _
  exact ⟨fun h => parseStep_logOnly (kc := .intent) hs h rfl, fun h => parseStep_logOnly (kc := .physdim) hs h rfl,
    fun h => parseStep_logOnly (kc := .gamma) hs h rfl⟩

/-- Settles O9: OTHER has no schema, so its record is always committed. -/
theorem otherRecordsAreLogged : Obligations.OtherRecordsAreLogged := by
  intro k p crc s hs _ _
  exact parseStep_logOnly (kc := .other) hs (Nat.zero_le _) rfl

/-! ## What no record touches -/

/-- Settles O13: a record that answers a next state is the short or the whole branch of the shared PARSE step, and a class's
effect writes PHASE, the flags, the geometry and ZBUF alone. -/
theorem recordsLeaveTheRest : Obligations.RecordsLeaveTheRest := by
  intro i s t hi h
  obtain ⟨kc, k, p, crc, hexec⟩ := exec_record hi
  rw [hexec] at h
  obtain ⟨hphase, ⟨-, rfl⟩ | ⟨-, rfl⟩⟩ := parseStep_next h
  · exact ⟨fun _ => rfl, rfl, rfl, rfl, rfl, rfl, rfl, rfl, rfl, rfl, ⟨[], Nat.zero_le _, (List.append_nil _).symm⟩,
      ⟨[], (List.append_nil _).symm⟩, .inr ⟨rfl, rfl, rfl, rfl, rfl, rfl, rfl⟩⟩
  · rw [classEffect_eq]
    refine ⟨fun _ => rfl, rfl, rfl, rfl, rfl, rfl, rfl, rfl, rfl, rfl,
      ⟨[descriptorAt s kc k p crc], Nat.le_refl 1, rfl⟩, ⟨_, rfl⟩, .inl ⟨?_, rfl, rfl, rfl⟩⟩
    show (if kc = .term then Phase.geom else s.phase) ≠ .error
    rw [hphase]
    split <;> nofun

/-- Settles O14: no branch of the shared PARSE step looks at the checksum, and neither does a class's effect. -/
theorem checksumHasNoInfluence : Obligations.ChecksumHasNoInfluence := by
  intro k p crc crc' s
  rw [exec_recordOf, exec_recordOf]
  by_cases hphase : s.phase = .parse
  · rcases Nat.lt_or_ge p.length (schemaLen (classify k)) with hshort | hwhole
    · rw [parseStep_short hphase hshort, parseStep_short hphase hshort]
    · rw [parseStep_whole hphase hwhole, parseStep_whole hphase hwhole, classEffect_eq, classEffect_eq]
      simp only [mapNext, forgetCrc, State.logRecord_recLog, List.map_append]
      rfl
  · rw [parseStep_refused hphase, parseStep_refused hphase]

/-! ## The step that runs an instruction -/

theorem step_of_decodeRecord_ok {s : State} {i : Instr} {c : Cursor} (hh : s.host = []) (hp : s.phase = .parse)
    (hd : decodeRecord s.cursor = .ok i c) : step s = exec i s := by
  rw [step_of_nil hh, blockStep, hp]
  simp only [stepParse, hd]

theorem step_of_defilter {s : State} (hh : s.host = []) (hp : s.phase = .defilter) : step s = stepDefilter s := by
  rw [step_of_nil hh, blockStep, hp]

theorem stepDefilter_of_row {s : State} {i : Instr} (hrow : s.row < s.nrows) (hlen : s.rowBytes.length = s.stride)
    (hd : decodeRow s.rowBytes = .instr i) : stepDefilter s = exec i s := by
  rw [stepDefilter, if_pos hrow, stepRow, if_pos hlen, hd]

theorem step_of_writeCtrl {s : State} {v : Nat} {rest : List HostAct} (hh : s.host = .writeReg 0 v :: rest) :
    step s = writeCtrl v { s with host := rest } := by
  rw [step_of_cons hh]
  rfl

/-- Settles O15: each clause is the branch of the step that fetches the instruction. -/
theorem stepRunsTheDecodedInstruction : Obligations.StepRunsTheDecodedInstruction := by
  refine ⟨fun s i c => step_of_decodeRecord_ok, fun s i hh hp hrow hlen hd => ?_, fun s i v rest hh hd => ?_⟩
  · rw [step_of_defilter hh hp, stepDefilter_of_row hrow hlen hd]
  · rw [step_of_writeCtrl hh, writeCtrl, hd]

/-- A step in PARSE runs the whole record that stands at the cursor, whatever follows it (R90, R111). -/
theorem step_of_record {s : State} {i : Instr} {x : List Byte} (hh : s.host = []) (hp : s.phase = .parse)
    (hi : i.stream = .record) (hw : i.wellFormed = true) (hrest : s.cursor.rest = encode i ++ x) : step s = exec i s := by
  have hd := decodeRecord_encode hi hw x s.off
  rw [← hrest] at hd
  exact step_of_decodeRecord_ok hh hp hd

/-- The cursor's bytes are the first `n` bytes of IN at OFF and the bytes after them. -/
theorem State.cursor_rest_split {s : State} {n : Nat} (h : s.off + n ≤ s.inLen) :
    s.cursor.rest = s.memRead s.off n ++ s.cursor.rest.drop n := by
  rw [← State.memRead_take s s.off (s.inLen - s.off) n (by omega)]
  exact (List.take_append_drop n s.cursor.rest).symm

/-- Settles O16: the record's bytes at OFF are the first bytes at the cursor. -/
theorem stepRunsTheRecordInInput : Obligations.StepRunsTheRecordInInput := by
  intro s i hh hp hi hw hlen hmem
  have hrest := State.cursor_rest_split hlen
  rw [hmem] at hrest
  exact step_of_record hh hp hi hw hrest

/-- What a record does depends on IN and IN_LEN only through the record itself. -/
theorem exec_record_forgetInput {i : Instr} (hi : i.stream = .record) (s : State) (m : Memory) (n : Nat) :
    mapNext forgetInput (exec i s) = mapNext forgetInput (exec i { s with inMem := m, inLen := n }) := by
  obtain ⟨kc, k, p, crc, hexec⟩ := exec_record hi
  rw [hexec, hexec]
  by_cases hphase : s.phase = .parse
  · rcases Nat.lt_or_ge p.length (schemaLen kc) with hshort | hwhole
    · rw [parseStep_short hphase hshort, parseStep_short (by exact hphase) hshort]
      rfl
    · rw [parseStep_whole hphase hwhole, parseStep_whole (by exact hphase) hwhole, classEffect_eq, classEffect_eq]
      rfl
  · rw [parseStep_refused hphase, parseStep_refused (by exact hphase)]

/-- Settles O18: in both runs the step is the record's meaning. -/
theorem otherInputBytesHaveNoInfluence : Obligations.OtherInputBytesHaveNoInfluence := by
  intro s m n i x y hh hp hi hw hx hy
  rw [step_of_record hh hp hi hw hx, step_of_record (by exact hh) (by exact hp) hi hw hy]
  exact exec_record_forgetInput hi s m n

end Sys2Proof.Machine
end

section
/-! PROOF. Rows (spec/44_scanline_reconstructor.md): the Paeth predictor's choice (R150), that the left-to-right rule determines the
row (R142, R154), where filters coincide (R156), what no row touches, and the finish step (R153). -/

namespace Sys2Proof.Machine

open Sys2Proof

/-! ## The Paeth predictor -/

/-- Settles O28: the three cases of the choice, each with the distances it compared. -/
theorem paethPicksTheNearest : Obligations.PaethPicksTheNearest := by
  intro a b c p d r
  have hr : r = if d a ≤ d b ∧ d a ≤ d c then a else if d b ≤ d c then b else c := rfl
  by_cases ha : d a ≤ d b ∧ d a ≤ d c
  · rw [if_pos ha] at hr
    rw [hr]
    exact ⟨.inl rfl, Nat.le_refl _, ha.1, ha.2, fun _ _ => rfl, fun h => absurd ha.1 (by omega),
      fun h => absurd ha.2 (by omega)⟩
  · rw [if_neg ha] at hr
    by_cases hb : d b ≤ d c
    · rw [if_pos hb] at hr
      rw [hr]
      exact ⟨.inr (.inl rfl), by omega, Nat.le_refl _, hb, fun h1 h2 => absurd ⟨h1, h2⟩ ha, fun _ _ => rfl,
        fun _ h => absurd hb (by omega)⟩
    · rw [if_neg hb] at hr
      rw [hr]
      exact ⟨.inr (.inr rfl), by omega, by omega, Nat.le_refl _, fun h1 h2 => absurd ⟨h1, h2⟩ ha,
        fun _ h => absurd h hb, fun _ _ => rfl⟩

/-- Where the row above has only zeros, the predictor is the left sample (R148). -/
theorem paethPredictor_zero_above (a : Byte) : paethPredictor a 0#8 0#8 = a := by
  simp [paethPredictor]

/-- In the first pixel the predictor is the sample above (R148). -/
theorem paethPredictor_first_pixel (b : Byte) : paethPredictor 0#8 b 0#8 = b := by
  by_cases hb : b.toNat = 0
  · have hzero : b = 0#8 := BitVec.eq_of_toNat_eq hb
    rw [hzero]
    rfl
  · have hfar : ¬ b.toNat ≤ 0 := by omega
    simp [paethPredictor, hfar]

/-! ## The left-to-right rule -/

/-- Two rows whose samples are the filtered sample plus a predictor of the left sample are the same, if the predictors agree at the
left samples: by strong induction along the row, since a left sample stands three positions before. -/
theorem eq_of_samples_eq {body o1 o2 : List Byte} {f g : Nat → Byte → Nat} (hlen1 : o1.length = body.length)
    (hlen2 : o2.length = body.length)
    (h1 : ∀ k, k < body.length → (byteAt o1 k).toNat = ((byteAt body k).toNat + f k (leftSample o1 k)) % 256)
    (h2 : ∀ k, k < body.length → (byteAt o2 k).toNat = ((byteAt body k).toNat + g k (leftSample o2 k)) % 256)
    (hfg : ∀ k, k < body.length → ∀ l, f k (leftSample l k) = g k (leftSample l k)) : o1 = o2 := by
  refine eq_of_byteAt_eq (hlen1.trans hlen2.symm) fun k hk => ?_
  rw [hlen2] at hk
  induction k using Nat.strong_induction_on with
  | _ k ih =>
    have hleft : leftSample o1 k = leftSample o2 k := by
      rw [leftSample, leftSample]
      split
      · rfl
      · exact ih (k - 3) (by omega) (by omega)
    apply BitVec.eq_of_toNat_eq
    rw [h1 k hk, h2 k hk, hfg k hk o1, hleft]

/-- The predictor of tag `t` at sample `k`, as a function of the left sample: what `Reconstructs` adds there. -/
def predictAt (t : Nat) (above : List Byte) (k : Nat) (left : Byte) : Nat :=
  predict t left (byteAt above k) (leftSample above k)

/-- The reconstruction of a row is unique (R142, R154). -/
theorem reconstructs_unique {t : Nat} {above body o1 o2 : List Byte} (h1 : Reconstructs t above body o1)
    (h2 : Reconstructs t above body o2) : o1 = o2 := by
  obtain ⟨hlen1, hs1⟩ := h1
  obtain ⟨hlen2, hs2⟩ := h2
  exact eq_of_samples_eq (f := predictAt t above) (g := predictAt t above) hlen1 hlen2 hs1 hs2 fun _ _ _ => rfl

/-- Settles O30: an enabled ROW step with a legal tag delivers a row that reconstructs its body, and no other row does. -/
theorem reconstructionIsUnique : Obligations.ReconstructionIsUnique := by
  intro t body s ht hphase hrow hbody hprev
  obtain ⟨u, hu⟩ := exec_rowOf_ready (t := t) ((rowReady_iff body s).mpr ⟨hphase, hrow, hbody, hprev⟩)
  obtain ⟨-, ⟨-, out, l, rfl, hout⟩ | ⟨hillegal, -⟩⟩ := exec_rowOf_next hu
  · refine ⟨_, hu, ⟨out, hout⟩, fun out' hout' => ?_⟩
    rw [reconstructs_unique hout' hout]
    exact ⟨rfl, rfl⟩
  · omega

/-- Settles O29: each pair of filters has predictors that agree there, so the rows are the same by `eq_of_samples_eq`. -/
theorem filtersCoincideAtTheEdges : Obligations.FiltersCoincideAtTheEdges := by
  intro body s hphase hrow hbody hprev
  obtain ⟨on, ln, hn, hnlen, hns⟩ := rowStep_enabled 0x00#8 predNone hphase hrow hbody hprev
  obtain ⟨os, ls, hs, hslen, hss⟩ := rowStep_enabled 0x01#8 predSub hphase hrow hbody hprev
  obtain ⟨ou, lu, hu, hulen, hus⟩ := rowStep_enabled 0x02#8 predUp hphase hrow hbody hprev
  obtain ⟨op, lp, hp, hplen, hps⟩ := rowStep_enabled 0x04#8 predPaeth hphase hrow hbody hprev
  refine ⟨_, _, _, _, hn, hs, hu, hp, fun hzero => ?_, fun hpixel => ?_⟩
  · have hleft : ∀ k, leftSample s.prev.tail k = 0#8 := fun k => by
      rw [leftSample]
      split
      · rfl
      · rw [byteAt_tail, hzero]
    simp only [hzero, hleft] at hus hps
    have hpaeth : op = os := eq_of_samples_eq (f := fun _ x => predPaeth x 0#8 0#8) (g := fun _ x => x.toNat) hplen hslen hps hss
      fun _ _ _ => congrArg BitVec.toNat (paethPredictor_zero_above _)
    have hup : ou = on := eq_of_samples_eq (f := fun _ _ => 0) (g := fun _ _ => 0) hulen hnlen hus hns fun _ _ _ => rfl
    rw [hpaeth, hup]
    exact ⟨rfl, rfl⟩
  · have hfirst : ∀ k, k < body.length → ∀ l, leftSample l k = 0#8 := fun k hk l => if_pos (by omega)
    have hsub : os = on := eq_of_samples_eq (f := fun _ x => x.toNat) (g := fun _ _ => 0) hslen hnlen hss hns
      fun k hk l => by rw [hfirst k hk]; rfl
    have hpaeth : op = ou := eq_of_samples_eq
      (f := fun k x => predPaeth x (byteAt s.prev (k + 1)) (leftSample s.prev.tail k))
      (g := fun k _ => (byteAt s.prev (k + 1)).toNat) hplen hulen hps hus fun k hk l => by
        rw [hfirst k hk, hfirst k hk, predPaeth, paethPredictor_first_pixel]
    rw [hsub, hpaeth]
    exact ⟨rfl, rfl⟩

/-! ## What no row touches -/

/-- Every instruction of the row stream is a ROW step with a predictor, or ILLEGAL. -/
theorem exec_row {i : Instr} (h : i.stream = .row) :
    (∃ tag pred body, ∀ s, exec i s = rowStep tag pred body s) ∨ ∃ tag body, i = .illegal tag body := by
  cases i with
  | none body => exact .inl ⟨0x00#8, predNone, body, fun _ => rfl⟩
  | sub body => exact .inl ⟨0x01#8, predSub, body, fun _ => rfl⟩
  | up body => exact .inl ⟨0x02#8, predUp, body, fun _ => rfl⟩
  | average body => exact .inl ⟨0x03#8, predAverage, body, fun _ => rfl⟩
  | paeth body => exact .inl ⟨0x04#8, predPaeth, body, fun _ => rfl⟩
  | illegal tag body => exact .inr ⟨tag, body, rfl⟩
  | header | intent | physdim | gamma | term | idata | other | start => cases h

/-- A ROW step that is not enabled has no move (R141). -/
theorem rowStep_refused {tag : Byte} {pred : Byte → Byte → Byte → Nat} {body : List Byte} {s : State}
    (h : rowReady body s ≠ true) : rowStep tag pred body s = .refused .rowNotEnabled := if_neg h

theorem execIllegal_refused {tag : Byte} {body : List Byte} {s : State} (h : rowReady body s ≠ true) :
    execIllegal tag body s = .refused .rowNotEnabled := if_neg h

/-- Settles O31: a ROW step with a predictor is `finishRow` with the tag in front of CUR, and ILLEGAL is the error entry with CUR
loaded. -/
theorem rowsLeaveTheRest : Obligations.RowsLeaveTheRest := by
  intro i s t hi h
  rcases exec_row hi with ⟨tag, pred, body, hexec⟩ | ⟨tag, body, rfl⟩
  · rw [hexec] at h
    by_cases hready : rowReady body s = true
    · obtain ⟨out, l, hnext, -⟩ := rowStep_ready (tag := tag) (pred := pred) hready
      rw [hnext] at h
      cases h
      exact ⟨fun _ => rfl, rfl, rfl, rfl, rfl, rfl, rfl, rfl, rfl, rfl, rfl, rfl,
        .inl ⟨rfl, rfl, rfl, rfl, tag, out, rfl, rfl, rfl⟩⟩
    · rw [rowStep_refused hready] at h
      cases h
  · by_cases hready : rowReady body s = true
    · rw [exec_illegal_ready tag hready] at h
      cases h
      exact ⟨fun _ => rfl, rfl, rfl, rfl, rfl, rfl, rfl, rfl, rfl, rfl, rfl, rfl, .inr ⟨rfl, rfl, rfl, rfl, rfl, rfl⟩⟩
    · rw [exec, execIllegal_refused hready] at h
      cases h

/-! ## The finish step, waiting, and the stops -/

theorem blockStep_of_not_busy {s : State} (h : s.busy = false) : blockStep s = .next s := by
  rw [State.busy] at h
  rw [blockStep]
  split <;> simp_all [Phase.busy]

/-- Settles O39: with no action listed the step is the block's own, and outside a run that changes nothing. -/
theorem idleBlockWaits : Obligations.IdleBlockWaits := by
  intro s hh hbusy
  rw [step_of_nil hh, blockStep_of_not_busy hbusy]

/-- Settles O22: with no row left the step is the finish, in DONE the block waits, and GRID is as `GridOk` says with ROW = NROWS. -/
theorem finishStep : Obligations.FinishStep := by
  intro s hh hphase hrow hgrid
  obtain ⟨-, hwidth, -, hcount, -, -⟩ := hgrid
  obtain ⟨-, -, hlen, -⟩ := hcount (by rw [hphase]; rfl)
  refine ⟨?_, idleBlockWaits _ hh rfl, hlen.trans hrow, hwidth⟩
  rw [step_of_defilter hh hphase, stepDefilter, if_neg (by omega), if_pos hrow]

theorem exec_rowOf_refused {t : Byte} {body : List Byte} {s : State} (h : rowReady body s ≠ true) :
    exec (rowOf t body) s = .refused .rowNotEnabled := by
  rcases rowOf_cases t body with ⟨-, e⟩ | ⟨-, e⟩ | ⟨-, e⟩ | ⟨-, e⟩ | ⟨-, e⟩ | ⟨-, e⟩ <;> rw [e]
  iterate 5 exact rowStep_refused h
  exact execIllegal_refused h

theorem step_of_writeReg {s : State} {n v : Nat} {rest : List HostAct} (hh : s.host = .writeReg n v :: rest) :
    step s = writeReg n v { s with host := rest } := by
  rw [step_of_cons hh, hostStep]

/-- Settles O40: the three refusing branches. -/
theorem stopsByName : Obligations.StopsByName := by
  refine ⟨fun i s hi hphase => ?_, fun tag body s h => ?_, fun s n v rest hh hn => ?_⟩
  · obtain ⟨kc, k, p, crc, hexec⟩ := exec_record hi
    rw [hexec, parseStep_refused hphase]
  · refine exec_rowOf_refused fun hready => ?_
    obtain ⟨hphase, hrow, hbody, hprev⟩ := (rowReady_iff body s).mp hready
    rcases h with h | h | h | h
    · exact h hphase
    · omega
    · exact h hbody
    · exact h hprev
  · rw [step_of_writeReg hh, writeReg, if_neg (by omega), if_neg (by omega), if_neg (by omega)]

end Sys2Proof.Machine
end

section
/-! PROOF. START, reset and the host's accesses (spec/10_state.md R17 to R32, spec/70_reset_and_hazards.md R200 to R204). -/

namespace Sys2Proof.Machine

open Sys2Proof

/-! ## START and reset -/

theorem writeCtrl_eq (v : Nat) (s : State) : writeCtrl v s = if v % 2 = 1 then exec .start s else .next s := by
  rw [writeCtrl, decodeCommand]
  by_cases hv : v % 2 = 1
  · rw [if_pos hv, if_pos hv]
  · rw [if_neg hv, if_neg hv]

/-- Settles O32: the two branches of `execStart`, and the decoder of a CTRL value. -/
theorem startBeginsARun : Obligations.StartBeginsARun := by
  intro s
  refine ⟨fun hidle => if_neg (by simp [hidle]), fun hbusy => if_pos hbusy, fun v rest hh => ?_⟩
  rw [step_of_writeCtrl hh, writeCtrl_eq]

/-- Settles O33: the step is `doReset`, whatever the phase. -/
theorem resetClearsEverything : Obligations.ResetClearsEverything := by
  intro s rest hh
  exact ⟨_, step_of_cons hh, rfl, rfl, rfl, rfl, rfl, rfl, rfl, rfl, rfl, rfl, rfl, rfl, rfl, rfl, rfl, rfl, rfl, rfl, rfl⟩

/-- Settles O34: the registers are read off the reset state, one number at a time. -/
theorem resetValues : Obligations.ResetValues := by
  refine ⟨rfl, rfl, rfl, rfl, rfl, rfl, rfl, rfl, rfl, rfl, rfl, rfl, rfl, rfl, rfl, rfl, rfl, rfl, fun n hn => ?_⟩
  interval_cases n <;> rfl

/-- Settles O48: after reset nothing has been logged or delivered, and no error is reported. -/
theorem resetMeetsTheInvariants : Obligations.ResetMeetsTheInvariants :=
  ⟨reset_memory_wf, by decide, gridOk_of_empty rfl rfl rfl, errorOk_of_clear nofun rfl, logOk_of_empty rfl rfl rfl rfl,
    fun _ => rfl, reconOk_of_empty nofun rfl⟩

/-! ## What the host reads -/

/-- The register file by number (R17, R19, R25). -/
def registers (s : State) : List (Nat × Nat) :=
  [(0, 0), (1, s.status), (2, s.err.code.toNat), (3, s.err.sub.toNat), (4, s.err.info0), (5, s.err.info1),
    (6, s.inLen), (7, s.off), (8, s.recStart), (9, s.recLog.length), (10, s.geom.width.toNat), (11, s.geom.height.toNat),
    (12, s.geom.bitDepth.toNat), (13, s.geom.colorModel.toNat), (14, s.geom.compression.toNat),
    (15, s.geom.filterMethod.toNat), (16, s.geom.interlace.toNat), (17, s.zbuf.length), (18, s.fbuf.length),
    (19, s.stride), (20, s.nrows), (21, s.row), (22, s.grid.length)]

theorem regValue_of_mem_registers (s : State) : ∀ x ∈ registers s, regValue x.1 s = some x.2 := by
  simp [registers, regValue]

/-- The file has the registers 0 to 22 (R17). -/
theorem regValue_isSome_iff (n : Nat) (s : State) : (regValue n s).isSome = true ↔ n ≤ 22 := by
  by_cases hn : n ≤ 22
  · refine iff_of_true ?_ hn
    interval_cases n <;> rfl
  · obtain ⟨m, rfl⟩ := Nat.exists_eq_add_of_lt (Nat.lt_of_not_le hn)
    refine iff_of_false ?_ hn
    rw [show 22 + m + 1 = m + 23 by omega]
    simp [regValue]

theorem hostRead_status (s : State) : hostRead (.reg 1) s = some (.number s.status) := by
  simp [hostRead, regValue]

/-- While BUSY the host reads STATUS and nothing else (R32). -/
theorem hostRead_isSome_of_busy {s : State} (hbusy : s.busy = true) (t : ReadTarget) :
    (hostRead t s).isSome = true ↔ t = .reg 1 := by
  have hdone : s.phase ≠ .done := by
    intro hd
    rw [State.busy, hd] at hbusy
    cases hbusy
  cases t with
  | reg n =>
    by_cases hn : n = 1
    · subst hn
      simp [hostRead_status]
    · simp [hostRead, hbusy, hn]
  | recLog => simp [hostRead, hbusy]
  | grid => simp [hostRead, hdone]
  | tagLog => simp [hostRead, hdone]

/-- While not BUSY the host reads every register of the file (R32). -/
theorem hostRead_reg_of_not_busy {s : State} (hidle : s.busy = false) (n : Nat) :
    hostRead (.reg n) s = (regValue n s).map ReadValue.number := by
  simp [hostRead, hidle]

/-- Settles O36: the rights by phase, and `registers` for the values. -/
theorem hostReadRights : Obligations.HostReadRights := by
  intro s
  refine ⟨hostRead_status s, hostRead_isSome_of_busy, fun hidle n => ?_, fun hidle n v hv => ?_, fun hidle => ?_, fun g => ?_,
    fun l => ?_, fun t rest hh => ?_⟩
  · rw [hostRead_reg_of_not_busy hidle, Option.isSome_map, regValue_isSome_iff]
  · rw [hostRead_reg_of_not_busy hidle, regValue_of_mem_registers s (n, v) hv, Option.map_some]
  · simp [hostRead, hidle]
  · simp [hostRead, eq_comm]
  · simp [hostRead, eq_comm]
  · rw [step_of_cons hh]
    rfl

/-! ## What the host writes -/

theorem inByte_writeBytes_same (s : State) (o : Nat) (bytes : List Byte) (k : Nat) (h : k < bytes.length) :
    ({ s with inMem := Memory.writeBytes s.inMem o bytes } : State).inByte (o + k) = byteAt bytes k := by
  rw [State.inByte, Memory.read?_writeBytes_same _ _ _ _ h, Option.getD_some, byteAt]

theorem inByte_writeBytes_other (s : State) (o : Nat) (bytes : List Byte) (a : Nat) (h : a < o ∨ o + bytes.length ≤ a) :
    ({ s with inMem := Memory.writeBytes s.inMem o bytes } : State).inByte a = s.inByte a := by
  rw [State.inByte, Memory.read?_writeBytes_other _ _ _ _ h, State.inByte]

/-- Settles O37: both accesses are refused while BUSY, and what a write of bytes leaves is `inByte_writeBytes_same` and
`inByte_writeBytes_other`. -/
theorem hostLoadsTheInput : Obligations.HostLoadsTheInput := by
  intro s rest
  refine ⟨fun o bytes hh hidle => ⟨Memory.writeBytes s.inMem o bytes, ?_, inByte_writeBytes_same s o bytes,
    inByte_writeBytes_other s o bytes⟩, fun v hh hidle => ?_, fun o bytes hh hbusy => ?_, fun v hh hbusy => ?_⟩
  · rw [step_of_cons hh]
    exact if_neg (by simpa [State.busy] using hidle)
  · rw [step_of_writeReg hh, writeReg, if_neg (by decide), if_pos rfl]
    exact if_neg (by simpa [State.busy] using hidle)
  · rw [step_of_cons hh]
    exact if_pos hbusy
  · rw [step_of_writeReg hh, writeReg, if_neg (by decide), if_pos rfl]
    exact if_pos hbusy

/-- Settles O38: the last branch of `writeReg` that the file has. -/
theorem readOnlyRegistersIgnoreWrites : Obligations.ReadOnlyRegistersIgnoreWrites := by
  intro s n v rest hh h0 h6 hn
  rw [step_of_writeReg hh, writeReg, if_neg h0, if_neg h6, if_pos hn]

end Sys2Proof.Machine
end

section
/-! PROOF. What every step leaves alone: the flags and the geometry of a run, IN and IN_LEN, and ERROR with its report
(spec/10_state.md R16, R20 to R23; spec/60_exceptions.md R178 to R180). -/

namespace Sys2Proof.Machine

open Sys2Proof

/-- The block's own step sets flags and clears none, and writes the geometry only with the first header (R16, R23). -/
theorem OwnStep.flags_stay {s t : State} (h : OwnStep s t) :
    (s.flags.hdrSeen = true → t.flags.hdrSeen = true ∧ t.geom = s.geom)
    ∧ (s.flags.dataBeforeHdr = true → t.flags.dataBeforeHdr = true)
    ∧ (s.flags.endSeen = true → t.flags.endSeen = true)
    ∧ (t.flags.hdrSeen = false → t.geom = s.geom) := by
  cases h with
  | fails hraises =>
    rw [hraises.frame]
    exact ⟨fun h => ⟨h, rfl⟩, id, id, fun _ => rfl⟩
  | commits =>
    refine ⟨fun h => by simp [h], fun h => by simp [h], fun h => by simp [h], fun h => ?_⟩
    simp only [Bool.or_eq_false_iff, decide_eq_false_iff_not] at h
    exact if_neg fun hheader => h.2 hheader.2
  | waits | queries | inflates | slices | row | finishes => exact ⟨fun h => ⟨h, rfl⟩, id, id, fun _ => rfl⟩

/-- Settles O42: the block's own step is `OwnStep.flags_stay`; of the host's actions only START and reset write flags or
geometry. -/
theorem flagsAndGeometryStay : Obligations.FlagsAndGeometryStay := by
  intro s t h hreset hstart
  cases step_anyStep h with
  | own _ hown => exact hown.flags_stay
  | nothing | loadsIn | loadsLen => exact ⟨fun h => ⟨h, rfl⟩, id, id, fun _ => rfl⟩
  | starts hact hodd => exact absurd hact (hstart _ _ hodd)
  | resets hact => exact absurd hact (hreset _)

theorem inByte_congr {s t : State} (h : t.inMem = s.inMem) (a : Nat) : t.inByte a = s.inByte a := by
  rw [State.inByte, State.inByte, h]

/-- Settles O43: the block's own step is `OwnStep.input`, and START keeps IN and IN_LEN too. -/
theorem blockNeverWritesInput : Obligations.BlockNeverWritesInput := by
  intro s t h hreset
  cases step_anyStep h with
  | own _ hown =>
    obtain ⟨hmem, hlen, -⟩ := hown.input
    exact ⟨fun _ => inByte_congr hmem, fun _ => hlen⟩
  | nothing | starts => exact ⟨fun _ _ => rfl, fun _ => rfl⟩
  | loadsIn hact => exact ⟨fun hin => absurd hact (hin _ _ _), fun _ => rfl⟩
  | loadsLen hact => exact ⟨fun _ _ => rfl, fun hlen => absurd hact (hlen _ _)⟩
  | resets hact => exact absurd hact (hreset _)

/-- Outside a run the block's own step changes nothing (R30). -/
theorem OwnStep.eq_of_not_busy {s t : State} (h : OwnStep s t) (hidle : s.busy = false) : t = s := by
  cases h with
  | waits => rfl
  | fails hraises => exact absurd (hidle.symm.trans hraises.busy) nofun
  | commits hphase | queries hphase | inflates hphase | slices hphase | row hphase | finishes hphase =>
    rw [State.busy, hphase] at hidle
    cases hidle

/-- Settles O44: in ERROR the block waits, and of the host's actions only START and reset write PHASE or the report. -/
theorem errorStays : Obligations.ErrorStays := by
  intro s t hphase h
  cases step_anyStep h with
  | own _ hown =>
    rw [hown.eq_of_not_busy (by rw [State.busy, hphase]; rfl)]
    exact .inl ⟨hphase, rfl, rfl, rfl, rfl⟩
  | nothing | loadsIn | loadsLen => exact .inl ⟨hphase, rfl, rfl, rfl, rfl⟩
  | @starts v l hact hodd => exact .inr (.inr ⟨v, l, hact, hodd, rfl, rfl, rfl⟩)
  | @resets l hact => exact .inr (.inl ⟨l, hact, rfl, rfl⟩)

theorem ErrorKind.code_ne_zero (e : ErrorKind) : e.code ≠ 0#3 := by cases e <;> decide

/-- The block enters ERROR by the error entry only (R178). -/
theorem OwnStep.raises_of_error {s t : State} (h : OwnStep s t) (hs : s.phase ≠ .error) (ht : t.phase = .error) :
    ∃ e sub i0 i1 u, Raises s e sub i0 i1 u ∧ t = State.raise e sub i0 i1 u := by
  cases h with
  | waits => exact absurd ht hs
  | fails hraises => exact ⟨_, _, _, _, _, hraises, rfl⟩
  | @commits k =>
    have hcommit : (if classify k = .term then Phase.geom else .parse) ≠ .error := by split <;> nofun
    exact absurd ht hcommit
  | row => exact absurd ht hs
  | queries | inflates | slices | finishes => cases ht

/-- Settles O45: such a step is the block's own error entry, and what found the error moved the cursor or CUR alone. -/
theorem errorCommitsNothing : Obligations.ErrorCommitsNothing := by
  intro s t h hs ht
  cases step_anyStep h with
  | own _ hown =>
    obtain ⟨e, sub, i0, i1, u, hraises, rfl⟩ := hown.raises_of_error hs ht
    rw [hraises.frame]
    exact ⟨rfl, rfl, e.code_ne_zero, rfl, rfl, rfl, rfl, rfl, rfl, rfl, rfl, rfl, rfl, fun _ => rfl⟩
  | nothing | loadsIn | loadsLen => exact absurd ht hs
  | starts | resets => cases ht

end Sys2Proof.Machine
end

section
/-! PROOF. Runs (spec/70_reset_and_hazards.md R210, R211): a BUSY block always has a step, each step moves it forward, so every run
ends, and what the step that ends it leaves. -/

namespace Sys2Proof.Machine

open Sys2Proof

/-! ## A BUSY block has a step -/

theorem stepParse_steps {s : State} (hphase : s.phase = .parse) : ∃ t, stepParse s = .next t := by
  rw [stepParse]
  cases hd : decodeRecord s.cursor with
  | short o n => exact ⟨_, rfl⟩
  | ok i c =>
    obtain ⟨k, p, crc, rfl, -⟩ := decodeRecord_ok hd
    dsimp only
    rw [exec_recordOf]
    rcases Nat.lt_or_ge p.length (schemaLen (classify k)) with hshort | hwhole
    · exact ⟨_, parseStep_short hphase hshort⟩
    · exact ⟨_, parseStep_whole hphase hwhole⟩

theorem stepGeom_steps (s : State) : ∃ t, stepGeom s = .next t := by
  rw [stepGeom]
  split <;> exact ⟨_, rfl⟩

theorem stepSlice_steps {s : State} (hstride : s.stride ≠ 0) : ∃ t, stepSlice s = .next t := by
  rw [stepSlice, if_neg hstride]
  split <;> exact ⟨_, rfl⟩

/-- Row ROW of an FBUF of whole rows is a tag and STRIDE - 1 bytes (R65, R140). -/
theorem State.rowBytes_cons {s : State} {w : Nat} (hfbuf : s.fbuf.length = s.nrows * s.stride) (hrow : s.row < s.nrows)
    (hstride : s.stride = w + 1) : ∃ tag body, s.rowBytes = tag :: body ∧ body.length = w := by
  have hroom : s.row * s.stride + s.stride ≤ s.fbuf.length := by
    rw [hfbuf, ← Nat.succ_mul]
    exact Nat.mul_le_mul_right _ hrow
  have hlen : s.rowBytes.length = w + 1 := by
    rw [State.rowBytes, List.length_take, List.length_drop]
    omega
  obtain ⟨tag, body, hbytes⟩ := List.exists_cons_of_length_eq_add_one hlen
  exact ⟨tag, body, hbytes, by simpa [hbytes] using hlen⟩

theorem stepDefilter_steps {s : State} (hphase : s.phase = .defilter) (hstage : StageOk s) (hgrid : GridOk s) :
    ∃ t, stepDefilter s = .next t := by
  obtain ⟨-, -, -, hcount, -, -⟩ := hgrid
  obtain ⟨hfbuf, hle, -, hprev⟩ := hcount (by rw [hphase]; rfl)
  obtain ⟨-, -, -, -, hgeom, -⟩ := hstage
  obtain ⟨-, -, hstride⟩ := hgeom (by rw [hphase]; rfl)
  rcases Nat.lt_or_eq_of_le hle with hrow | hrow
  · obtain ⟨tag, body, hbytes, hbody⟩ := State.rowBytes_cons hfbuf hrow hstride
    have hwf : WellFormed.body body = true := by
      have hwidth := s.geom.width.isLt
      rw [WellFormed.body, decide_eq_true_iff]
      omega
    have hlen : s.rowBytes.length = s.stride := by rw [hbytes, List.length_cons, hbody, hstride]
    have hd : decodeRow s.rowBytes = .instr (rowOf tag body) := by rw [hbytes, decodeRow, if_pos hwf]
    rw [stepDefilter_of_row hrow hlen hd]
    exact exec_rowOf_ready ((rowReady_iff body s).mpr ⟨hphase, hrow, by omega, hprev⟩)
  · exact ⟨_, by rw [stepDefilter, if_neg (by omega), if_pos hrow]⟩

/-- Settles O56: phase by phase; STRIDE is not 0 and the rows of FBUF are whole by the invariants. -/
theorem busyBlockSteps : Obligations.BusyBlockSteps := by
  intro s hstage hgrid hbusy hh
  rw [step_of_nil hh, blockStep]
  rcases (Phase.busy_iff s.phase).mp hbusy with hphase | hphase | hphase | hphase | hphase <;> simp only [hphase]
  · exact stepParse_steps hphase
  · exact stepGeom_steps s
  · exact ⟨_, rfl⟩
  · obtain ⟨-, -, -, -, hgeom, -⟩ := hstage
    obtain ⟨-, -, hstride⟩ := hgeom (by rw [hphase]; rfl)
    exact stepSlice_steps (by omega)
  · exact stepDefilter_steps hphase hstage hgrid

/-! ## Every step moves it forward -/

/-- The three ways forward (R210): a later phase, a later record within IN_LEN, a later row within NROWS. -/
abbrev Forward (s t : State) : Prop :=
  s.phase.code.toNat < t.phase.code.toNat
  ∨ (s.phase = .parse ∧ t.phase = .parse ∧ s.off + 12 ≤ t.off ∧ t.off ≤ t.inLen ∧ t.inLen = s.inLen)
  ∨ (s.phase = .defilter ∧ t.phase = .defilter ∧ t.row = s.row + 1 ∧ t.row ≤ t.nrows ∧ t.nrows = s.nrows)

theorem Phase.code_lt_error {p : Phase} (h : p.busy = true) : p.code.toNat < Phase.error.code.toNat := by
  revert h
  cases p <;> decide

theorem OwnStep.forward {s t : State} (h : OwnStep s t) (hbusy : s.busy = true) : Forward s t := by
  cases h with
  | waits hidle => exact absurd (hidle.symm.trans hbusy) nofun
  | fails => exact .inl (Phase.code_lt_error hbusy)
  | @commits k p crc rest d hphase hlen hschema hrest =>
    have hend := State.off_add_le_inLen hrest
    by_cases hterm : classify k = .term
    · exact .inl (by simp [hphase, hterm, Phase.code])
    · exact .inr (.inl ⟨hphase, if_neg hterm, Nat.le_add_right _ _, hend, rfl⟩)
  | row hphase _ hrow => exact .inr (.inr ⟨hphase, hphase, rfl, hrow, rfl⟩)
  | queries hphase | inflates hphase | slices hphase | finishes hphase =>
    exact .inl (by simp [hphase, Phase.code])

/-- Settles O59: with no action listed the step is the block's own, and that is `OwnStep.forward`. -/
theorem busyStepsMakeProgress : Obligations.BusyStepsMakeProgress := by
  intro s t hbusy hh h
  rw [step_of_nil hh] at h
  exact (blockStep_ownStep h).forward hbusy

/-! ## Every run ends -/

/-- What is left of the work of a phase: bytes of IN in PARSE, rows in DEFILTER (R210). -/
def State.workLeft (s : State) : Nat := if s.phase = .parse then s.inLen - s.off else s.nrows - s.row

/-- A step forward leaves fewer phases, or the same phases and less work. -/
theorem Forward.decreases {s t : State} (h : Forward s t) :
    Prod.Lex (· < ·) (· < ·) (7 - t.phase.code.toNat, t.workLeft) (7 - s.phase.code.toNat, s.workLeft) := by
  have hcode := t.phase.code.isLt
  rcases h with hphase | ⟨hs, ht, hoff, hin, hlen⟩ | ⟨hs, ht, hrow, hle, hrows⟩
  · exact .left _ _ (by omega)
  · rw [hs, ht]
    refine .right _ ?_
    rw [State.workLeft, State.workLeft, if_pos hs, if_pos ht]
    omega
  · rw [hs, ht]
    refine .right _ ?_
    rw [State.workLeft, State.workLeft, hs, ht, if_neg nofun, if_neg nofun]
    omega

theorem run_succ (M : Host.Core) {s t : M.State} {k : Nat} (h : M.step s = .next t) : M.run (k + 1) s = M.run k t := by
  rw [Host.Core.run, h]

/-- A run that ends did so by an error or by the finish step. -/
theorem OwnStep.ends {s t : State} (h : OwnStep s t) (hbusy : s.busy = true) (ht : t.busy = false) :
    (∃ e sub i0 i1 u, Raises s e sub i0 i1 u ∧ t = State.raise e sub i0 i1 u)
    ∨ (s.phase = .defilter ∧ s.row = s.nrows ∧ t = { s with phase := .done }) := by
  cases h with
  | waits => exact absurd (hbusy.symm.trans ht) nofun
  | fails hraises => exact .inl ⟨_, _, _, _, _, hraises, rfl⟩
  | @commits k =>
    have hcommit : (if classify k = .term then Phase.geom else .parse).busy = true := by split <;> rfl
    exact absurd (hcommit.symm.trans ht) nofun
  | row => exact absurd (hbusy.symm.trans ht) nofun
  | finishes hphase hrow => exact .inr ⟨hphase, hrow, rfl⟩
  | queries | inflates | slices => cases ht

/-- A BUSY block that meets the invariants reaches DONE or ERROR: by induction on the phases and the work left. -/
theorem run_ends (s : State) (hstage : StageOk s) (hgrid : GridOk s) (hbusy : s.busy = true) (hh : s.host = []) :
    ∃ (k : Nat) (t : State), Host.Core.run core k s = .next t ∧ (t.phase = .done ∨ t.phase = .error) := by
  obtain ⟨t, ht⟩ := busyBlockSteps s hstage hgrid hbusy hh
  have hown : OwnStep s t := blockStep_ownStep (step_of_nil hh ▸ ht)
  cases htb : t.busy with
  | false =>
    refine ⟨1, t, run_succ core ht, ?_⟩
    rcases hown.ends hbusy htb with ⟨_, _, _, _, _, -, rfl⟩ | ⟨-, -, rfl⟩
    · exact .inr rfl
    · exact .inl rfl
  | true =>
    have hdec := (hown.forward hbusy).decreases
    obtain ⟨-, -, hhost⟩ := hown.input
    obtain ⟨k, u, hrun, hu⟩ := run_ends t (hown.stageOk hstage) (hown.gridOk hstage hgrid) htb (hhost.trans hh)
    exact ⟨k + 1, u, (run_succ core ht).trans hrun, hu⟩
termination_by (7 - s.phase.code.toNat, s.workLeft)
decreasing_by exact hdec

/-- Settles O57: it is `run_ends`. -/
theorem everyRunEnds : Obligations.EveryRunEnds := run_ends

/-! ## The end of a run -/

/-- The step that ends a run is the block's own: from outside only reset stops a BUSY block (R18, R201). -/
theorem AnyStep.own_of_ends {s t : State} (h : AnyStep s t) (hbusy : s.busy = true) (hreset : ∀ rest, s.host ≠ .reset :: rest)
    (ht : t.busy = false) : ∃ l, OwnStep { s with host := l } t := by
  cases h with
  | own _ hown => exact ⟨_, hown⟩
  | nothing => exact absurd (hbusy.symm.trans ht) nofun
  | loadsIn _ hidle | loadsLen _ hidle | starts _ _ hidle => exact absurd (hbusy.symm.trans hidle) nofun
  | resets hact => exact absurd hact (hreset _)

/-- A log with a terminator and none before its end ends with it (R116). -/
theorem exists_concat_term {l : List Descriptor} (hend : (logFlags l).endSeen = true)
    (hinit : ∀ d ∈ l.dropLast, d.kclass ≠ .term) :
    ∃ m d, l = m ++ [d] ∧ d.kclass = .term ∧ ∀ e ∈ m, e.kclass ≠ .term := by
  rcases List.eq_nil_or_concat l with rfl | ⟨m, d, rfl⟩
  · cases hend
  · rw [List.concat_eq_append] at *
    rw [List.dropLast_concat] at hinit
    rw [logFlags_concat, Bool.or_eq_true, decide_eq_true_iff] at hend
    have hopen : (logFlags m).endSeen = false := by simpa [logFlags] using hinit
    exact ⟨m, d, rfl, hend.resolve_left (by simp [hopen]), hinit⟩

/-- In ERROR the report is one of the five errors (R170). -/
theorem ErrorOk.code_range {s : State} (h : ErrorOk s) (hphase : s.phase = .error) :
    1 ≤ s.err.code.toNat ∧ s.err.code.toNat ≤ 5 := by
  obtain ⟨-, hreport⟩ := h
  obtain ⟨-, -, hcause⟩ := hreport hphase
  rcases hcause with ⟨hc, -⟩ | ⟨hc, -⟩ | ⟨hc, -⟩ | ⟨hc, -⟩ | ⟨hc, -⟩ | ⟨hc, -⟩ <;> rw [hc] <;> decide

/-- What the error entry leaves of a run (R178, R180): the log as it stands in IN, a report, and no image. -/
theorem Raises.end_of_run {s u : State} {e : ErrorKind} {sub : BitVec 1} {i0 i1 : Nat} (h : Raises s e sub i0 i1 u)
    (hrecords : ∀ d ∈ s.recLog, RecordOk s d) :
    (∀ d ∈ (State.raise e sub i0 i1 u).recLog, RecordOk (State.raise e sub i0 i1 u) d)
    ∧ 1 ≤ (State.raise e sub i0 i1 u).err.code.toNat ∧ (State.raise e sub i0 i1 u).err.code.toNat ≤ 5
    ∧ (State.raise e sub i0 i1 u).grid = [] ∧ (State.raise e sub i0 i1 u).tagLog = [] := by
  obtain ⟨hlow, hhigh⟩ := h.errorOk.code_range rfl
  refine ⟨?_, hlow, hhigh, rfl, rfl⟩
  rw [h.frame]
  exact fun d hd => (recordOk_congr (s := s) rfl).mpr (hrecords d hd)

/-- Settles O58: an error leaves what `Raises.end_of_run` says; the finish step leaves the invariants at ROW = NROWS. -/
theorem endOfRun : Obligations.EndOfRun := by
  intro s t hstage hgrid herror hlog hrecon hbusy hreset h ht
  obtain ⟨l, hown⟩ := (step_anyStep h).own_of_ends hbusy hreset ht
  obtain ⟨-, -, hrecords, hterm, hflags, hgeometry⟩ := hlog
  rcases hown.ends hbusy ht with ⟨e, sub, i0, i1, u, hraises, rfl⟩ | ⟨hphase, hrow, rfl⟩
  · obtain ⟨hkept, hreport⟩ := hraises.end_of_run (hrecords hbusy)
    exact ⟨.inr rfl, hkept, nofun, fun _ => hreport⟩
  · have hphase' : s.phase = .defilter := hphase
    obtain ⟨-, -, -, hafter, hgeom, -⟩ := hstage
    obtain ⟨hseen, hdata, hstride⟩ := hgeom (by rw [hphase']; rfl)
    have hend := hafter (by rw [hphase']; rfl)
    obtain ⟨hlen, -, htags, hcount, -, -⟩ := hgrid
    obtain ⟨hfbuf, -, hgridlen, -⟩ := hcount (by rw [hphase']; rfl)
    obtain ⟨hrows, -⟩ := hrecon
    obtain ⟨hclear, -⟩ := herror
    have hrow' : s.grid.length = s.nrows := hgridlen.trans hrow
    refine ⟨.inl rfl, hrecords hbusy, fun _ => ⟨?_, ?_, ?_, hgeometry, hstride, hfbuf, hrow, hrow', hlen.trans hrow', htags,
      fun i hi => ?_⟩, nofun⟩
    · exact congrArg ErrRegs.code (hclear (by simp [hphase']))
    · show Flags.mk s.flags.hdrSeen s.flags.dataBeforeHdr s.flags.endSeen = _
      rw [hseen, hdata, hend]
    · exact exists_concat_term (hflags ▸ hend) hterm
    · obtain ⟨-, hout⟩ := hrows i (hrow' ▸ hi)
      exact hout

end Sys2Proof.Machine
end

section
/-! PROOF. Two noninterference claims with one argument: no step looks at the format registers (spec/42_container.md R120, R122),
and none at what the last one left in the latches and CUR (spec/10_state.md R11, R12). -/

namespace Sys2Proof.Machine

open Sys2Proof

/-- Sets parts of the geometry, the latches and CUR aside. -/
def forgetBy (g : Geometry → Geometry) (l : Latches → Latches) (c : List Byte → List Byte) (s : State) : State :=
  { s with geom := g s.geom, latch := l s.latch, cur := c s.cur }

/-- The parts set aside are set aside for good, and WIDTH is not among them. -/
structure Forgetting (g : Geometry → Geometry) (l : Latches → Latches) (c : List Byte → List Byte) : Prop where
  geom : ∀ x, g (g x) = g x
  width : ∀ x, (g x).width = x.width
  latch : ∀ x, l (l x) = l x
  cur : ∀ x, c (c x) = c x

/-- What `op` does is the same, up to the parts `f` sets aside, whether or not they were set aside before. -/
abbrev Blind (f : State → State) (op : State → Host.Outcome State Fault Refusal) : Prop :=
  ∀ s, mapNext f (op s) = mapNext f (op (f s))

/-- `forgetFormat` keeps WIDTH of the geometry, and the latches and CUR. -/
theorem forgetting_format : Forgetting (fun x => { Geometry.zero with width := x.width }) id id :=
  ⟨fun _ => rfl, fun _ => rfl, fun _ => rfl, fun _ => rfl⟩

/-- `forgetScratch` keeps the geometry. -/
theorem forgetting_scratch : Forgetting id (fun _ => Latches.zero) (fun _ => []) :=
  ⟨fun _ => rfl, fun _ => rfl, fun _ => rfl, fun _ => rfl⟩

theorem mapNext_ite_congr {f : State → State} {p : Prop} [Decidable p] {a a' b b' : Host.Outcome State Fault Refusal}
    (hpos : mapNext f a = mapNext f a') (hneg : mapNext f b = mapNext f b') :
    mapNext f (if p then a else b) = mapNext f (if p then a' else b') := by
  split
  · exact hpos
  · exact hneg

/-- Whether a read is within its rights depends on PHASE and the register number alone (R32). -/
theorem hostRead_isSome_forgetBy (g : Geometry → Geometry) (l : Latches → Latches) (c : List Byte → List Byte)
    (t : ReadTarget) (s : State) : (hostRead t (forgetBy g l c s)).isSome = (hostRead t s).isSome := by
  cases t with
  | reg n =>
    have hbusy : (forgetBy g l c s).busy = s.busy := rfl
    have hreg : (regValue n (forgetBy g l c s)).isSome = (regValue n s).isSome :=
      Bool.eq_iff_iff.mpr ((regValue_isSome_iff n _).trans (regValue_isSome_iff n s).symm)
    rw [hostRead, hostRead, hbusy]
    split
    · rfl
    · rw [Option.isSome_map, Option.isSome_map, hreg]
  | recLog | grid | tagLog => rfl

section

variable {g : Geometry → Geometry} {l : Latches → Latches} {c : List Byte → List Byte} (hf : Forgetting g l c)

include hf

theorem forgetBy_forgetBy (s : State) : forgetBy g l c (forgetBy g l c s) = forgetBy g l c s := by
  simp only [forgetBy, hf.geom, hf.latch, hf.cur]

theorem next_self_blind (s : State) :
    mapNext (forgetBy g l c) (.next s) = mapNext (forgetBy g l c) (.next (forgetBy g l c s)) :=
  congrArg Host.Outcome.next (forgetBy_forgetBy hf s).symm

/-- An update that leaves geometry, latches and CUR alone does the same, up to them, whether or not they were set aside. -/
theorem next_blind {op : State → State} {s : State} (h : op (forgetBy g l c s) = forgetBy g l c (op s)) :
    mapNext (forgetBy g l c) (.next (op s)) = mapNext (forgetBy g l c) (.next (op (forgetBy g l c s))) := by
  rw [h]
  exact next_self_blind hf (op s)

/-- Of the record classes only HEADER writes any of these parts: the geometry, from its descriptor or not at all (R113). -/
theorem classEffect_blind (kc : KClass) (p : List Byte) (d : Descriptor) (s : State) :
    mapNext (forgetBy g l c) (.next (classEffect kc p d s))
      = mapNext (forgetBy g l c) (.next (classEffect kc p d (forgetBy g l c s))) := by
  cases kc with
  | header =>
    cases hseen : s.flags.hdrSeen <;>
      simp [mapNext, forgetBy, classEffect, State.hoist, hseen, hf.geom, hf.latch, hf.cur]
  | term => exact next_blind hf (op := State.noteEnd) rfl
  | idata => exact next_blind hf (op := fun s => s.noteData.appendZ p) rfl
  | intent | physdim | gamma | other => exact next_self_blind hf s

theorem parseStep_blind (kc : KClass) (k : Word32) (p : List Byte) (crc : Word32) :
    Blind (forgetBy g l c) (parseStep kc k p crc (classEffect kc p)) := by
  intro s
  by_cases hphase : s.phase = .parse
  · have hphase' : (forgetBy g l c s).phase = .parse := hphase
    rcases Nat.lt_or_ge p.length (schemaLen kc) with hshort | hwhole
    · rw [parseStep_short hphase hshort, parseStep_short hphase' hshort]
      exact next_blind hf (op := fun s => State.raise .malformedRecord 0#1 s.off p.length (s.passRecord p)) rfl
    · rw [parseStep_whole hphase hwhole, parseStep_whole hphase' hwhole]
      exact classEffect_blind hf kc p _ (State.logRecord (descriptorAt s kc k p crc) (s.passRecord p))
  · rw [parseStep_refused hphase, parseStep_refused (by exact hphase)]

/-- The latches after a row are those of its last sample; only a row without samples keeps what was there before. -/
theorem samples_latch_blind (pred : Byte → Byte → Byte → Nat) (prev : List Byte) (x n : Nat) (a : Latches) (cur : List Byte) :
    l (samples pred prev x n { latch := l a, cur := cur }).latch = l (samples pred prev x n { latch := a, cur := cur }).latch
    ∧ (samples pred prev x n { latch := l a, cur := cur }).cur = (samples pred prev x n { latch := a, cur := cur }).cur := by
  cases n with
  | zero => exact ⟨hf.latch a, rfl⟩
  | succ n => exact ⟨rfl, rfl⟩

theorem rowStep_blind (tag : Byte) (pred : Byte → Byte → Byte → Nat) (body : List Byte) :
    Blind (forgetBy g l c) (rowStep tag pred body) := by
  intro s
  obtain ⟨hlatch, hcur⟩ := samples_latch_blind hf pred s.prev 1 body.length s.latch (tag :: body)
  refine mapNext_ite_congr ?_ rfl
  simp [mapNext, forgetBy, State.finishRow, hf.geom, hlatch, hcur]

theorem execIllegal_blind (tag : Byte) (body : List Byte) : Blind (forgetBy g l c) (execIllegal tag body) := by
  intro s
  refine mapNext_ite_congr ?_ rfl
  simp [mapNext, forgetBy, State.raise, hf.geom, hf.latch]

theorem execStart_blind : Blind (forgetBy g l c) execStart := by
  intro s
  refine mapNext_ite_congr (next_self_blind hf s) ?_
  simp [mapNext, forgetBy, State.startRun, hf.latch]

theorem exec_blind (i : Instr) : Blind (forgetBy g l c) (exec i) := by
  intro s
  cases hstream : i.stream with
  | record =>
    obtain ⟨kc, k, p, crc, hexec⟩ := exec_record hstream
    rw [hexec, hexec]
    exact parseStep_blind hf kc k p crc s
  | row =>
    rcases exec_row hstream with ⟨tag, pred, body, hexec⟩ | ⟨tag, body, rfl⟩
    · rw [hexec, hexec]
      exact rowStep_blind hf tag pred body s
    · exact execIllegal_blind hf tag body s
  | command =>
    cases i with
    | start => exact execStart_blind hf s
    | _ => cases hstream

theorem stepParse_blind : Blind (forgetBy g l c) stepParse := by
  intro s
  have hcursor : (forgetBy g l c s).cursor = s.cursor := rfl
  rw [stepParse, stepParse, hcursor]
  cases decodeRecord s.cursor with
  | ok i _ => exact exec_blind hf i s
  | short o n => exact next_blind hf (op := State.failRead o n) rfl

theorem stepGeom_blind : Blind (forgetBy g l c) stepGeom := by
  intro s
  refine mapNext_ite_congr ?_ ?_
  · simp [mapNext, forgetBy, State.raise, hf.geom, hf.latch, hf.cur]
  · simp [mapNext, forgetBy, hf.geom, hf.width, hf.latch, hf.cur]

theorem stepInflate_blind : Blind (forgetBy g l c) stepInflate := by
  intro s
  have hzbuf : (forgetBy g l c s).zbuf = s.zbuf := rfl
  rw [stepInflate, stepInflate, hzbuf]
  exact next_blind hf (by cases Config.decompress s.zbuf <;> rfl)

theorem stepSlice_blind : Blind (forgetBy g l c) stepSlice := by
  intro s
  refine mapNext_ite_congr rfl (mapNext_ite_congr ?_ ?_)
  · simp [mapNext, forgetBy, State.raise, hf.geom, hf.latch, hf.cur]
  · simp [mapNext, forgetBy, hf.geom, hf.latch, hf.cur]

theorem stepRow_blind : Blind (forgetBy g l c) stepRow := by
  intro s
  have hbytes : (forgetBy g l c s).rowBytes = s.rowBytes := rfl
  rw [stepRow, stepRow, hbytes]
  refine mapNext_ite_congr ?_ rfl
  cases decodeRow s.rowBytes with
  | instr i => exact exec_blind hf i s
  | rejected _ => rfl

theorem stepDefilter_blind : Blind (forgetBy g l c) stepDefilter := by
  intro s
  refine mapNext_ite_congr (stepRow_blind hf s) (mapNext_ite_congr ?_ rfl)
  simp [mapNext, forgetBy, hf.geom, hf.latch, hf.cur]

theorem blockStep_blind : Blind (forgetBy g l c) blockStep := by
  intro s
  have hphase : (forgetBy g l c s).phase = s.phase := rfl
  rw [blockStep, blockStep, hphase]
  cases s.phase with
  | idle | done | error => exact next_self_blind hf s
  | parse => exact stepParse_blind hf s
  | geom => exact stepGeom_blind hf s
  | inflate => exact stepInflate_blind hf s
  | slice => exact stepSlice_blind hf s
  | defilter => exact stepDefilter_blind hf s

theorem writeReg_blind (n v : Nat) : Blind (forgetBy g l c) (writeReg n v) := by
  intro s
  refine mapNext_ite_congr ?_ (mapNext_ite_congr (mapNext_ite_congr rfl ?_) (mapNext_ite_congr (next_self_blind hf s) rfl))
  · rw [writeCtrl_eq, writeCtrl_eq]
    exact mapNext_ite_congr (exec_blind hf .start s) (next_self_blind hf s)
  · simp [mapNext, forgetBy, hf.geom, hf.latch, hf.cur]

theorem hostStep_blind (a : HostAct) : Blind (forgetBy g l c) (hostStep a) := by
  intro s
  cases a with
  | pass => exact blockStep_blind hf s
  | writeIn o bytes =>
    refine mapNext_ite_congr rfl ?_
    simp [mapNext, forgetBy, hf.geom, hf.latch, hf.cur]
  | writeReg n v => exact writeReg_blind hf n v s
  | read t =>
    rw [hostStep, hostStep, hostRead_isSome_forgetBy]
    exact mapNext_ite_congr (next_self_blind hf s) rfl
  | reset => rfl

theorem step_blind : Blind (forgetBy g l c) step := by
  intro s
  cases hh : s.host with
  | nil =>
    rw [step_of_nil hh, step_of_nil (by exact hh)]
    exact blockStep_blind hf s
  | cons a rest =>
    rw [step_of_cons hh, step_of_cons (by exact hh)]
    exact hostStep_blind hf a { s with host := rest }

end

/-- Settles O46: only WIDTH of the geometry is read, by the GEOM step. -/
theorem formatHasNoInfluence : Obligations.FormatHasNoInfluence := by
  exact step_blind forgetting_format

/-- Settles O47: a ROW step loads CUR and, for each sample, all four latches. -/
theorem scratchHasNoInfluence : Obligations.ScratchHasNoInfluence := by
  exact step_blind forgetting_scratch

end Sys2Proof.Machine
end
